-- ==== Sys2Proof/Word.lean ====
section
/-! DEFINITION. The word and byte types, and the readings of a word as a number (00_scope.md R8). -/

namespace Sys2Proof

/-- Every register and bus word is 32 bits wide (00_scope.md R6). -/
abbrev Word := BitVec 32

/-- One byte lane of the aperture (20_memory.md R61). -/
abbrev Byte := BitVec 8

/-- `sint32(w)`: the two's-complement reading of a word (00_scope.md R8). -/
abbrev sint32 (w : Word) : Int := w.toInt

/-- `uint32(w)`: the unsigned reading of a word (00_scope.md R8). -/
abbrev uint32 (w : Word) : Nat := w.toNat

/-- `word32(x)`: the word whose unsigned value is `x mod 2^32` (00_scope.md R8). -/
abbrev word32 (x : Int) : Word := BitVec.ofInt 32 x

end Sys2Proof
end

