-- ==== Sys2Proof/Machine/Bits.lean ====
section
/-! DEFINITION. Bit fields of a word (00_scope.md R7) and the byte lanes of a word (20_memory.md R61). -/

namespace Sys2Proof.Machine

/-- `w[lo+3:lo]` as a number: one 4-bit slot field (30_encoding.md R92). -/
def nibble (w : Word) (lo : Nat) : Nat := (w.extractLsb' lo 4).toNat

/-- `w[7:0]`: the opcode field (30_encoding.md R90). -/
def opField (w : Word) : Byte := w.extractLsb' 0 8

/-- Byte lane `b` of a word: bits `[8b+7:8b]` (20_memory.md R61). -/
def lane (w : Word) (b : Nat) : Byte := w.extractLsb' (8 * b) 8

/-- The word whose byte lanes 0 to 3 are `b0` to `b3` (20_memory.md R61). -/
def wordOfLanes (b0 b1 b2 b3 : Byte) : Word := b3 ++ b2 ++ b1 ++ b0

end Sys2Proof.Machine
end

