-- ==== Sys2Proof/Syntax.lean ====
section
/-! DEFINITION. The commands of the block: one constructor per row of spec/opcode_table.json (30_encoding.md R93, R94). -/

namespace Sys2Proof

/-- The number in a slot field of a command word (30_encoding.md R92). -/
abbrev SlotIdx := Nat

/-- A command with the slot fields its opcode uses (30_encoding.md R93). The unused fields of a command word have no effect
(30_encoding.md R95; log 15) and stand in no constructor; `R[CMD]` keeps the whole word (10_state.md R28). -/
inductive Instr where
  | sinv
  | sgcd
  | det (a : SlotIdx)
  | adj (a dst : SlotIdx)
  | inv (a dst : SlotIdx)
  | solveLin (a b dst : SlotIdx)
  | solveAff (a b c d dst dst2 : SlotIdx)
  deriving DecidableEq, Repr

/-- The slot fields of a command in the order the checks read them: `A`, `B`, `C`, `D`, `DST`, `DST2` (30_encoding.md R93). -/
def Instr.slots : Instr → List SlotIdx
  | .sinv => []
  | .sgcd => []
  | .det a => [a]
  | .adj a dst => [a, dst]
  | .inv a dst => [a, dst]
  | .solveLin a b dst => [a, b, dst]
  | .solveAff a b c d dst dst2 => [a, b, c, d, dst, dst2]

end Sys2Proof
end

