-- ==== Sys2Proof/WellFormed.lean ====
section
/-! DEFINITION. Which `Instr` terms a command word can hold (30_encoding.md R90, R92). -/

namespace Sys2Proof

/-- Every slot field is "a slot index from 0 to 15" (30_encoding.md R92). An index of `NSLOT` or more is well formed: the
command is accepted and completes with `BAD_SLOT` (30_encoding.md R97). -/
def Instr.wf (i : Instr) : Bool := i.slots.all (· < 16)

abbrev Instr.WellFormed (i : Instr) : Prop := i.wf = true

end Sys2Proof
end

