-- ==== Sys2Proof/Decode.lean ====
section
/-! DEFINITION. The decoder of command words (30_encoding.md R90 to R97) and the encoder (30_encoding.md R98). -/

namespace Sys2Proof

open Machine (nibble opField lane wordOfLanes)

/-- Why the decoder gives no command. -/
inductive DecodeError where
  /-- `OP` is one of the 249 reserved values (30_encoding.md R96). The block accepts such a word and completes it with
  `BAD_OPCODE`; nothing stops, so this is safe. -/
  | reservedOpcode (op : Byte)
  /-- Fewer than the four bytes of a command word (30_encoding.md R91). A bus write always carries four; safe. -/
  | truncated
  deriving DecidableEq, Repr

/-- The command of a word: the decoder "matches on `w[7:0]` alone" (30_encoding.md R94), and slot fields are the 4-bit
fields of R90, zero-extended (R92). -/
def decodeWord (w : Word) : Except DecodeError Instr :=
  let a := nibble w 8
  let b := nibble w 12
  let c := nibble w 16
  let d := nibble w 20
  let dst := nibble w 24
  let dst2 := nibble w 28
  if opField w = 0x01#8 then .ok .sinv
  else if opField w = 0x02#8 then .ok .sgcd
  else if opField w = 0x10#8 then .ok (.det a)
  else if opField w = 0x11#8 then .ok (.adj a dst)
  else if opField w = 0x12#8 then .ok (.inv a dst)
  else if opField w = 0x20#8 then .ok (.solveLin a b dst)
  else if opField w = 0x21#8 then .ok (.solveAff a b c d dst dst2)
  else .error (.reservedOpcode (opField w))

/-- Decoding from bytes as the bus carries them, least significant byte first (20_memory.md R61); every command is exactly
four bytes long (30_encoding.md R91). Answers the command and the rest of the bytes. -/
def decodeBytes : List Byte → Except DecodeError (Instr × List Byte)
  | b0 :: b1 :: b2 :: b3 :: rest =>
    match decodeWord (wordOfLanes b0 b1 b2 b3) with
    | .ok i => .ok (i, rest)
    | .error e => .error e
  | _ => .error .truncated

/-- The opcode of a command (30_encoding.md R94). -/
def Instr.opcode : Instr → Byte
  | .sinv => 0x01#8
  | .sgcd => 0x02#8
  | .det _ => 0x10#8
  | .adj _ _ => 0x11#8
  | .inv _ _ => 0x12#8
  | .solveLin _ _ _ => 0x20#8
  | .solveAff _ _ _ _ _ _ => 0x21#8

/-- The word with the seven fields of the format `CMD32`, from bit 0 up (30_encoding.md R90). -/
def cmdWord (op : Byte) (a b c d dst dst2 : SlotIdx) : Word :=
  BitVec.ofNat 4 dst2 ++ BitVec.ofNat 4 dst ++ BitVec.ofNat 4 d ++ BitVec.ofNat 4 c ++ BitVec.ofNat 4 b ++
    BitVec.ofNat 4 a ++ op

/-- The word of a command, zero in the unused fields (30_encoding.md R98). -/
def encode (i : Instr) : Word :=
  match i with
  | .sinv => cmdWord i.opcode 0 0 0 0 0 0
  | .sgcd => cmdWord i.opcode 0 0 0 0 0 0
  | .det a => cmdWord i.opcode a 0 0 0 0 0
  | .adj a dst => cmdWord i.opcode a 0 0 0 dst 0
  | .inv a dst => cmdWord i.opcode a 0 0 0 dst 0
  | .solveLin a b dst => cmdWord i.opcode a b 0 0 dst 0
  | .solveAff a b c d dst dst2 => cmdWord i.opcode a b c d dst dst2

/-- The word whose low `nbits` bits are those of `w` and whose other bits are 0. -/
def tableWord (nbits w : Nat) : Word := BitVec.ofNat 32 (w % 2 ^ nbits)

/-- The bytes of a word in bus order (20_memory.md R61). -/
def busBytes (w : Word) : List Byte := [lane w 0, lane w 1, lane w 2, lane w 3]

/-- What this decoder reads from an instruction of spec/opcode_table.json whose bits are `w`. -/
def decodeTableWord (nbits w : Nat) : Option Instr :=
  match decodeBytes (busBytes (tableWord nbits w)) with
  | .ok (i, _) => some i
  | .error _ => none

end Sys2Proof
end

