-- ==== Sys2Proof/Config.lean ====
section
/-! DEFINITION. What an implementation or a platform fixes (00_scope.md R6, 20_memory.md R68), and the free values
(20_memory.md R64, R73). -/

namespace Sys2Proof

/-- The open parameters of a block and of its place in a system.
`nmax` and `nslot` are `NMAX` and `NSLOT` (00_scope.md R6); `base` and `irqLine` are `BASE` and `IRQ_LINE`
(20_memory.md R60, R68; 60_exceptions.md R210). `busInOrder` is `BUS_IN_ORDER`: the bus delivers the host's writes in program
order (20_memory.md R73). -/
structure Params where
  nmax : Nat
  nslot : Nat
  base : Nat
  irqLine : Nat
  busInOrder : Bool
  deriving DecidableEq, Repr

/-- The legal values of `NMAX` and `NSLOT`: 1 to 16 each (00_scope.md R6). -/
abbrev Params.Legal (p : Params) : Prop :=
  1 ≤ p.nmax ∧ p.nmax ≤ 16 ∧ 1 ≤ p.nslot ∧ p.nslot ≤ 16

/-- The defaults of 00_scope.md R6, "the values of every example in this spec", and of 20_memory.md R73, "true by default".
DESIGN CHOICE (log 1): the spec gives `BASE` and `IRQ_LINE` no default; unsafe, 0 is the model's. -/
def Config.defaultParams : Params := ⟨8, 8, 0, 0, true⟩

/-- The words that host reads of unwritten entries return, one per draw (20_memory.md R64, 70_reset_and_hazards.md R243):
a free value, log 4. Nothing constrains it. -/
opaque Config.freeWord : Nat → Word

/-- Which host write arrives next where `BUS_IN_ORDER` is false, one per draw (20_memory.md R73): a free value, log 22. Nothing
constrains it. -/
opaque Config.freeArrival : Nat → Nat

end Sys2Proof
end

