-- ==== Sys2Proof/Machine/Memory.lean ====
section
/-! DEFINITION. The entry storage as bytes of the aperture (10_state.md R43, 20_memory.md R60, R61): a list of
(offset, byte) cells in one canonical form, and the word accesses built from it. -/

namespace Sys2Proof.Machine

/-- Cells at rising byte offsets of the aperture. A byte that is not listed has NO VALUE: it has not been written since
power-on (10_state.md R46, 70_reset_and_hazards.md R243; log 5). -/
abbrev Memory := List Host.Cell

/-- The canonical form: offsets strictly rising. Since an unlisted byte has no value, no cell equals an unlisted one. -/
abbrev Memory.wf (μ : Memory) : Prop := μ.Pairwise (fun x y => x.1 < y.1)

/-- The byte at an offset, `none` if it was never written. -/
def Memory.read : Memory → Nat → Option Byte
  | [], _ => none
  | (k, v) :: rest, a => if k = a then some v else Memory.read rest a

/-- Write one byte. -/
def Memory.write : Memory → Nat → Byte → Memory
  | [], a, v => [(a, v)]
  | (k, u) :: rest, a, v =>
    if a < k then (a, v) :: (k, u) :: rest
    else if a = k then (a, v) :: rest
    else (k, u) :: Memory.write rest a v

/-- The word at an offset, from its four byte lanes (20_memory.md R61); `none` unless all four were written (log 6). -/
def Memory.readWord (μ : Memory) (a : Nat) : Option Word :=
  match μ.read a, μ.read (a + 1), μ.read (a + 2), μ.read (a + 3) with
  | some b0, some b1, some b2, some b3 => some (wordOfLanes b0 b1 b2 b3)
  | _, _, _, _ => none

/-- Write the four byte lanes of a word (20_memory.md R61). -/
def Memory.writeWord (μ : Memory) (a : Nat) (w : Word) : Memory :=
  (((μ.write a (lane w 0)).write (a + 1) (lane w 1)).write (a + 2) (lane w 2)).write (a + 3) (lane w 3)

/-- Write a list of words, first to last. -/
def Memory.writeWords : Memory → List (Nat × Word) → Memory
  | μ, [] => μ
  | μ, (a, w) :: rest => Memory.writeWords (μ.writeWord a w) rest

/-- The byte offset of `ENTRY[s][i][j]` (10_state.md R43). -/
def entryAddr (nmax s i j : Nat) : Nat := 0x1000 + 4 * ((s * nmax + i) * nmax + j)

/-- The length of the aperture in bytes (10_state.md R22, 20_memory.md R60). -/
def apertureSize (nmax nslot : Nat) : Nat := 0x1000 + 4 * nslot * nmax * nmax

end Sys2Proof.Machine
end

