-- ==== Sys2Proof/Machine/State.lean ====
section
/-! DEFINITION. The machine's state (10_state.md R46), the events it can take (20_memory.md R70), and reset
(70_reset_and_hazards.md R240, R244). -/

namespace Sys2Proof.Machine

/-- Why a run has no meaning (40_command_model.md R128). These are marks IN the state (`State.fault`): a command whose
operand was never written still completes, as R125 says, and no step of this model answers `Outcome.fault` (log 16). -/
inductive Fault where
  /-- Raised by DET, ADJ, INV, SOLVE_LIN and SOLVE_AFF when an entry inside a source's shape was not written since power-on
  (40_command_model.md R128, R130). Safe for claims about states without the mark; unsafe for a claim that ignores the mark,
  because the block writes some result there (log 5). -/
  | uninitOperand
  deriving DecidableEq, Repr

/-- Why a step has no meaning. No instruction of this model is refused. -/
inductive Refusal where
  /-- An arm of `exec` whose instruction has no meaning yet. No arm raises it; it would be safe. -/
  | notModelled (mnemonic : String)
  deriving DecidableEq, Repr

/-- A `SHAPE` register: row and column counts, 8 bits each (10_state.md R42). -/
structure Shape where
  rows : BitVec 8
  cols : BitVec 8
  deriving DecidableEq, Repr

/-- One event of the total order of 20_memory.md R70, or a reset from outside (00_scope.md R15). Addresses are the
platform's: `BASE` plus an offset (20_memory.md R60). -/
inductive Event where
  /-- a host bus read of `size` bytes -/
  | read (addr size : Nat)
  /-- a host bus write of `size` bytes -/
  | write (addr size : Nat) (v : Word)
  /-- the engine's completion step (40_command_model.md R125); skipped when nothing is pending (log 7) -/
  | complete
  /-- power-on reset (70_reset_and_hazards.md R240) -/
  | powerOn
  deriving DecidableEq, Repr

/-- What a bus transaction returns (20_memory.md R63 to R65). -/
inductive BusResp where
  /-- a read's word -/
  | data (w : Word)
  /-- a write that was not refused; dropped and ignored writes return no error either (20_memory.md R66) -/
  | done
  /-- `raise BusError` (20_memory.md R63) -/
  | busError
  deriving DecidableEq, Repr

/-- The state of the block, 10_state.md R46, with its parameters (log 1) and the model's own `draws`, `resp` and `sched`
(logs 2, 3, 4). -/
structure State where
  /-- `NMAX`, `NSLOT`, `BASE`, `IRQ_LINE`, `BUS_IN_ORDER`; no step changes them -/
  params : Params
  /-- `R[CMD]` readback (R28) -/
  cmd : Word
  /-- `STATUS.BUSY` (R30) -/
  busy : Bool
  /-- `STATUS.DONE` (R31) -/
  done : Bool
  /-- `STATUS.ERR` (R32) -/
  err : Bool
  /-- `STATUS.BUSYWR` (R33) -/
  busywr : Bool
  /-- `STATUS.ERR_ARG` (R34) -/
  errArg : BitVec 4
  /-- `STATUS.ERR_CODE` (R35) -/
  errCode : BitVec 8
  /-- `STATUS.LAST_OP` (R36) -/
  lastOp : BitVec 8
  /-- `IRQ_EN.DONE_IE` (R27) -/
  doneIe : Bool
  /-- `IRQ_EN.ERR_IE` (R27) -/
  errIe : Bool
  /-- `R[MOD]` (R37) -/
  mod : Word
  /-- `R[SCALAR_A]` (R38) -/
  scalarA : Word
  /-- `R[SCALAR_R]` (R39) -/
  scalarR : Word
  /-- `R[DET_R]` (R40) -/
  detR : Word
  /-- `SHAPE[0]` to `SHAPE[NSLOT - 1]` (R42) -/
  shapes : List Shape
  /-- the entry words `E[s][i][j]`, as bytes (R43) -/
  mem : Memory
  /-- the pending latch `P` (R44) -/
  pending : Option Word
  /-- the model fault mark (R46, 40_command_model.md R128) -/
  fault : Option Fault
  /-- how many free values have been drawn (logs 4, 22) -/
  draws : Nat
  /-- what the last bus transaction returned (log 3) -/
  resp : Option BusResp
  /-- the events still to come, the host's in its program order (20_memory.md R70, R73; log 2) -/
  sched : List Event
  deriving DecidableEq, Repr

/-- The state after power-on reset of a block with parameters `p` (70_reset_and_hazards.md R240, R244). -/
def State.powerOn (p : Params) : State where
  params := p
  cmd := 0#32
  busy := false
  done := false
  err := false
  busywr := false
  errArg := 0#4
  errCode := 0#8
  lastOp := 0#8
  doneIe := false
  errIe := false
  mod := 0#32
  scalarA := 0#32
  scalarR := 0#32
  detR := 0#32
  shapes := List.replicate p.nslot ⟨0#8, 0#8⟩
  mem := []
  pending := none
  fault := none
  draws := 0
  resp := none
  sched := []

/-- The machine right after power-on reset, with the default parameters of 00_scope.md R6 and 20_memory.md R73 (log 1). -/
def State.reset : State := State.powerOn Config.defaultParams

end Sys2Proof.Machine
end

