-- ==== Sys2Proof/Machine/Flags.lean ====
section
/-! DEFINITION. Error codes and operand indicators (60_exceptions.md R201, 10_state.md R34), the words of `STATUS`, `IRQ_EN`,
`PARAMS` and `SHAPE` (10_state.md R25, R27, R29, R42), and the interrupt output (10_state.md R45). -/

namespace Sys2Proof.Machine

/-- The error names of 60_exceptions.md R201 that `raise CmdError` can carry. -/
inductive ErrCode where
  | notSquare
  | singular
  | noInverse
  | dimMismatch
  | badModulus
  | badShape
  | badSlot
  | badOpcode
  deriving DecidableEq, Repr

/-- The codes of 60_exceptions.md R201. -/
def errCodeBits : ErrCode → BitVec 8
  | .notSquare => 1#8
  | .singular => 2#8
  | .noInverse => 3#8
  | .dimMismatch => 4#8
  | .badModulus => 5#8
  | .badShape => 6#8
  | .badSlot => 7#8
  | .badOpcode => 8#8

/-- The operand an error concerns (10_state.md R34). -/
inductive ErrArg where
  | none
  | a
  | b
  | c
  | d
  | dst
  | dst2
  deriving DecidableEq, Repr

/-- The values of `STATUS.ERR_ARG` (10_state.md R34). -/
def errArgBits : ErrArg → BitVec 4
  | .none => 0#4
  | .a => 1#4
  | .b => 2#4
  | .c => 3#4
  | .d => 4#4
  | .dst => 5#4
  | .dst2 => 6#4

/-- One bit. -/
def bit (b : Bool) : BitVec 1 := if b then 1#1 else 0#1

/-- `R[ID]`, "MSIG" (10_state.md R24). -/
def idWord : Word := 0x4D534947#32

/-- `R[PARAMS]` = `{0x00, 0x01, NSLOT, NMAX}` (10_state.md R25). -/
def paramsWord (p : Params) : Word :=
  0x00#8 ++ 0x01#8 ++ BitVec.ofNat 8 p.nslot ++ BitVec.ofNat 8 p.nmax

/-- `R[STATUS]` (10_state.md R29, 20_memory.md R64). -/
def statusWord (s : State) : Word :=
  0#8 ++ s.lastOp ++ s.errCode ++ s.errArg ++ bit s.busywr ++ bit s.err ++ bit s.done ++ bit s.busy

/-- `R[IRQ_EN]` (10_state.md R27, 20_memory.md R64). -/
def irqEnWord (s : State) : Word := 0#30 ++ bit s.errIe ++ bit s.doneIe

/-- A `SHAPE` register's word (10_state.md R42, 20_memory.md R64). -/
def shapeWord (sh : Shape) : Word := 0#16 ++ sh.cols ++ sh.rows

/-- The shape a written word holds: bits [31:16] are ignored (10_state.md R42, 20_memory.md R65). -/
def shapeOfWord (v : Word) : Shape := ⟨v.extractLsb' 0 8, v.extractLsb' 8 8⟩

/-- The level output `IRQ` (10_state.md R45). -/
def irq (s : State) : Bool := (s.done && s.doneIe) || (s.err && s.errIe)

/-- The platform line that is asserted, if one is (20_memory.md R68, 60_exceptions.md R210). -/
def assertedLine (s : State) : Option Nat := if irq s then some s.params.irqLine else none

end Sys2Proof.Machine
end

