-- ==== Sys2Proof/Machine/Ring.lean ====
section
/-! DEFINITION. Matrices of integers and the arithmetic primitives over Z/mZ (40_command_model.md R131 to R136). Everything
is exact integer arithmetic; `x % m` on integers with `m >= 1` is the floor-modulo of 00_scope.md R9. -/

namespace Sys2Proof.Machine

/-- A matrix by rows (00_scope.md R12). Its shape is carried beside it. -/
abbrev Mat := List (List Int)

/-- `A[i][j]` (00_scope.md R12). -/
def entry (A : Mat) (i j : Nat) : Int := (A.getD i []).getD j 0

/-- The `r × c` matrix with entries `f i j`. -/
def matOf (r c : Nat) (f : Nat → Nat → Int) : Mat :=
  (List.range r).map fun i => (List.range c).map fun j => f i j

/-- `minor(A, i, j)`: row `i` and column `j` removed (40_command_model.md R131). -/
def minorOf (A : Mat) (i j : Nat) : Mat := (A.eraseIdx i).map (·.eraseIdx j)

/-- `(-1)^k`. -/
def sign (k : Nat) : Int := if k % 2 = 0 then 1 else -1

/-- `det(A)` of an `n × n` matrix by cofactors along row 0 (40_command_model.md R131). A term with a zero coefficient is 0
without its minor being computed: the same sum (log 13). R131 asks for `n >= 1`; the value at 0 is never used (log 14). -/
def det : Nat → Mat → Int
  | 0, _ => 1
  | 1, A => entry A 0 0
  | n + 2, A =>
    ((List.range (n + 2)).map fun j =>
      if entry A 0 j = 0 then 0 else sign j * entry A 0 j * det (n + 1) (minorOf A 0 j)).sum

/-- `adj(A)` of an `n × n` matrix: the transpose of the cofactor matrix, and `[[1]]` at `n = 1` (40_command_model.md R132). -/
def adj (n : Nat) (A : Mat) : Mat :=
  if n = 1 then [[1]] else matOf n n fun i j => sign (i + j) * det (n - 1) (minorOf A j i)

/-- `det_m(A)` (40_command_model.md R131). -/
def detMod (m n : Nat) (A : Mat) : Int := det n A % m

/-- `adj_m(A)` (40_command_model.md R132). -/
def adjMod (m n : Nat) (A : Mat) : Mat := matOf n n fun i j => entry (adj n A) i j % m

/-- `gcd(x, m)` (40_command_model.md R133). -/
def gcdMod (m : Nat) (x : Int) : Nat := Int.gcd x m

/-- The extended Euclidean loop on remainders `r0`, `r1` with their coefficients `t0`, `t1`; `fuel` above `r1` is enough. -/
def euclid : Nat → Nat → Nat → Int → Int → Int
  | 0, _, _, t0, _ => t0
  | fuel + 1, r0, r1, t0, t1 =>
    if r1 = 0 then t0 else euclid fuel r1 (r0 % r1) t1 (t0 - (r0 / r1 : Nat) * t1)

/-- `inv_m(x)` for `x` in [0, m) (40_command_model.md R134), by the extended Euclidean algorithm (41_scalar.md R151). -/
def invMod (m : Nat) (x : Int) : Int := euclid (m + 1) m x.toNat 0 1 % m

/-- The sum of `f k` for `k < n`. -/
def sumTo (n : Nat) (f : Nat → Int) : Int := ((List.range n).map f).sum

/-- `mul_m(X, Y)` of `n × n` matrices (40_command_model.md R135). -/
def mulMod (m n : Nat) (X Y : Mat) : Mat :=
  matOf n n fun i j => sumTo n (fun k => entry X i k * entry Y k j) % m

/-- `sub_m(X, Y)` of `n × n` matrices (40_command_model.md R135). -/
def subMod (m n : Nat) (X Y : Mat) : Mat := matOf n n fun i j => (entry X i j - entry Y i j) % m

/-- `scale_m(k, X)` of an `n × n` matrix (40_command_model.md R135). -/
def scaleMod (m n : Nat) (k : Int) (X : Mat) : Mat := matOf n n fun i j => (k * entry X i j) % m

/-- `X⁻¹ mod m` as INV and the solvers compute it: `scale_m(inv_m(d), adj_m(X))` with `d = det_m(X)` (42_matrix.md R166). -/
def inverseMod (m n : Nat) (X : Mat) : Mat := scaleMod m n (invMod m (detMod m n X)) (adjMod m n X)

end Sys2Proof.Machine
end

