-- ==== Sys2Proof/Machine/Ops.lean ====
section
/-! DEFINITION. The named operations on the state: reading and writing slots (10_state.md R42, R43), accepting a command
(40_command_model.md R121), raising a command error (60_exceptions.md R200), completing a command (40_command_model.md R125
to R128) and soft reset (70_reset_and_hazards.md R241). -/

namespace Sys2Proof.Machine

/-- `SH[k]` (00_scope.md R10). Slots of `NSLOT` or more do not exist; asked for one, this answers the reset shape
(log 19). -/
def shapeAt (s : State) (k : SlotIdx) : Shape := s.shapes.getD k ⟨0#8, 0#8⟩

/-- `E[k][i][j]`, `none` if not written since power-on (00_scope.md R10, 10_state.md R46). -/
def entryAt (s : State) (k : SlotIdx) (i j : Nat) : Option Word :=
  s.mem.readWord (entryAddr s.params.nmax k i j)

/-- `SH[k] <- sh`. -/
def setShape (s : State) (k : SlotIdx) (sh : Shape) : State := { s with shapes := s.shapes.set k sh }

/-- The cells of matrix `M` of shape `r × c` in slot `k`, in row-major order (40_command_model.md R126). -/
def blockCells (nmax : Nat) (k : SlotIdx) (r c : Nat) (M : Mat) : List (Nat × Word) :=
  (List.range r).flatMap fun i => (List.range c).map fun j => (entryAddr nmax k i j, word32 (entry M i j))

/-- `E[k][i][j] <- some word32(M[i][j])` for `i < r` and `j < c`; the other entries keep their values (40_command_model.md R126). -/
def writeBlock (s : State) (k : SlotIdx) (r c : Nat) (M : Mat) : State :=
  { s with mem := s.mem.writeWords (blockCells s.params.nmax k r c M) }

/-- A result write of 40_command_model.md R122. -/
inductive ResultWrite where
  | scalarR (v : Int)
  | detR (v : Int)
  | slot (k : SlotIdx) (r c : Nat) (M : Mat)
  deriving DecidableEq, Repr

/-- Apply one result write (40_command_model.md R126). -/
def applyWrite (s : State) : ResultWrite → State
  | .scalarR v => { s with scalarR := word32 v }
  | .detR v => { s with detR := word32 v }
  | .slot k r c M => writeBlock (setShape s k ⟨BitVec.ofNat 8 r, BitVec.ofNat 8 c⟩) k r c M

/-- Apply result writes "in the order `Exec` lists them" (40_command_model.md R126). -/
def applyWrites (s : State) (eff : List ResultWrite) : State := eff.foldl applyWrite s

/-- How `Exec` ends without results: `Err(code, arg)` or `Fault(reason)` (40_command_model.md R122). -/
inductive CmdStop where
  | err (code : ErrCode) (arg : ErrArg)
  | fault (reason : Fault)
  deriving DecidableEq, Repr

/-- The outcome of `Exec` (40_command_model.md R122): `Ok(eff)`, or one of the two stops. -/
abbrev CmdResult := Except CmdStop (List ResultWrite)

/-- `raise CmdError(code, arg)` as completion records it (60_exceptions.md R200). -/
def recordErr (s : State) (code : ErrCode) (arg : ErrArg) : State :=
  { s with err := true, errCode := errCodeBits code, errArg := errArgBits arg }

/-- `fault <- some reason` (40_command_model.md R125, R128). -/
def recordFault (s : State) (reason : Fault) : State := { s with fault := some reason }

/-- What every completion does last: `busy <- 0`, `done <- 1`, `P <- none` (40_command_model.md R125). -/
def finish (s : State) : State := { s with busy := false, done := true, pending := none }

/-- `Complete` with the outcome of `Exec` (40_command_model.md R125). -/
def complete (s : State) : CmdResult → State
  | .ok eff => finish (applyWrites s eff)
  | .error (.err code arg) => finish (recordErr s code arg)
  | .error (.fault reason) => finish (recordFault s reason)

/-- `Accept(w)` (40_command_model.md R121). -/
def accept (s : State) (w : Word) : State :=
  { s with
    cmd := w
    pending := some w
    busy := true
    done := false
    err := false
    errCode := 0#8
    errArg := 0#4
    lastOp := opField w }

/-- `SoftReset()`: every register and the latch as after power-on; entry words and the model's fault mark are kept
(70_reset_and_hazards.md R241). The parameters, the events to come and the model's own fields are not the block's to reset. -/
def softReset (s : State) : State :=
  { State.powerOn s.params with
    mem := s.mem
    fault := s.fault
    draws := s.draws
    resp := s.resp
    sched := s.sched }

/-- Power-on reset as an event (70_reset_and_hazards.md R240): everything as after power-on, entries unspecified and the fault
mark cleared. The events to come and the count of free values go on (logs 2, 4, 17, 21). -/
def powerOnReset (s : State) : State :=
  { State.powerOn s.params with
    draws := s.draws
    sched := s.sched }

end Sys2Proof.Machine
end

