-- ==== Sys2Proof/Machine/Bus.lean ====
section
/-! DEFINITION. The host's side: the aperture's address map (10_state.md R22), `MemRead` and `MemWrite` (20_memory.md R62 to
R67), and the host events of the schedule (20_memory.md R70). -/

namespace Sys2Proof.Machine

/-- What an aligned word offset inside the aperture addresses (10_state.md R22). -/
inductive Target where
  | id
  | params
  | ctrl
  | irqEn
  | cmd
  | status
  | mod
  | scalarA
  | scalarR
  | detR
  | shape (k : SlotIdx)
  | entry (off : Nat)
  | reserved
  deriving DecidableEq, Repr

/-- The registers below offset 0x100 (10_state.md R22). -/
def registerAt : Nat → Target
  | 0x000 => .id
  | 0x004 => .params
  | 0x008 => .ctrl
  | 0x00C => .irqEn
  | 0x010 => .cmd
  | 0x014 => .status
  | 0x018 => .mod
  | 0x01C => .scalarA
  | 0x020 => .scalarR
  | 0x024 => .detR
  | _ => .reserved

/-- The address map of 10_state.md R22, for aligned word offsets inside the aperture. From 0x1000 up every word is one entry
word, kept at its own offset. -/
def target (p : Params) (off : Nat) : Target :=
  if 0x1000 ≤ off then .entry off
  else if off < 0x100 then registerAt off
  else if off < 0x100 + 4 * p.nslot then .shape ((off - 0x100) / 4)
  else .reserved

/-- The accesses that do not fail: four bytes at a multiple of 4 inside the aperture (20_memory.md R62, R63). -/
def accessOk (p : Params) (off size : Nat) : Bool :=
  size = 4 && off % 4 = 0 && off < apertureSize p.nmax p.nslot

/-- The word a read of a target returns (20_memory.md R64). An entry not written since power-on gives the next fresh word
(free value, log 4). -/
def readTarget (s : State) : Target → Word
  | .id => idWord
  | .params => paramsWord s.params
  | .ctrl => 0#32
  | .irqEn => irqEnWord s
  | .cmd => s.cmd
  | .status => statusWord s
  | .mod => s.mod
  | .scalarA => s.scalarA
  | .scalarR => s.scalarR
  | .detR => s.detR
  | .shape k => shapeWord (shapeAt s k)
  | .entry off => (s.mem.readWord off).getD (Config.freeWord s.draws)
  | .reserved => 0#32

/-- Whether a read takes a fresh word: a read of an entry not written since power-on (20_memory.md R64). -/
def readDraws (s : State) : Target → Bool
  | .entry off => (s.mem.readWord off).isNone
  | _ => false

/-- `MemRead(off, size)` (20_memory.md R63, R64): the answer, and the state after it. A read has no side effect (R64); only the
model's count of free values moves on (log 4). -/
def memRead (s : State) (off size : Nat) : BusResp × State :=
  if accessOk s.params off size then
    (.data (readTarget s (target s.params off)),
      if readDraws s (target s.params off) then { s with draws := s.draws + 1 } else s)
  else (.busError, s)

/-- The registers that "a write ... while `STATUS.BUSY = 1`" leaves alone (20_memory.md R66). -/
def lockedWhileBusy : Target → Bool
  | .cmd => true
  | .mod => true
  | .scalarA => true
  | .shape _ => true
  | .entry _ => true
  | .id => false
  | .params => false
  | .ctrl => false
  | .irqEn => false
  | .status => false
  | .scalarR => false
  | .detR => false
  | .reserved => false

/-- A `STATUS` write clears DONE, ERR and BUSYWR where bits 1, 2 and 3 of the word are 1 (20_memory.md R65). -/
def clearStatus (s : State) (v : Word) : State :=
  { s with
    done := s.done && !v.getLsbD 1
    err := s.err && !v.getLsbD 2
    busywr := s.busywr && !v.getLsbD 3 }

/-- What a write that is not dropped does (20_memory.md R65). -/
def writeTarget (s : State) (v : Word) : Target → State
  | .ctrl => if v.getLsbD 0 then softReset s else s
  | .irqEn => { s with doneIe := v.getLsbD 0, errIe := v.getLsbD 1 }
  | .cmd => accept s v
  | .status => clearStatus s v
  | .mod => { s with mod := v }
  | .scalarA => { s with scalarA := v }
  | .shape k => setShape s k (shapeOfWord v)
  | .entry off => { s with mem := s.mem.writeWord off v }
  | .id => s
  | .params => s
  | .scalarR => s
  | .detR => s
  | .reserved => s

/-- `MemWrite(off, size, v)` (20_memory.md R63, R65, R66): the answer, and the state after it. -/
def memWrite (s : State) (off size : Nat) (v : Word) : BusResp × State :=
  if accessOk s.params off size then
    if s.busy && lockedWhileBusy (target s.params off) then (.done, { s with busywr := true })
    else (.done, writeTarget s v (target s.params off))
  else (.busError, s)

/-- Keep what a transaction returned (log 3). -/
def respond (r : BusResp × State) : State := { r.2 with resp := some r.1 }

/-- A host read at a platform address (20_memory.md R60, R68). An address below `BASE` is outside the aperture (R63, log 12). -/
def hostRead (s : State) (addr size : Nat) : State :=
  if s.params.base ≤ addr then respond (memRead s (addr - s.params.base) size) else respond (.busError, s)

/-- A host write at a platform address (20_memory.md R60, R68). An address below `BASE` is outside the aperture (R63, log 12). -/
def hostWrite (s : State) (addr size : Nat) (v : Word) : State :=
  if s.params.base ≤ addr then respond (memWrite s (addr - s.params.base) size v) else respond (.busError, s)

end Sys2Proof.Machine
end

