-- ==== Sys2Proof/Machine/Operands.lean ====
section
/-! DEFINITION. The common prefix of `Exec` (40_command_model.md R123, R124) and the reading of operands (R129, R130), in the
order of 60_exceptions.md R203. -/

namespace Sys2Proof.Machine

/-- A check: raise `stop` unless `ok`. -/
def require (ok : Bool) (stop : CmdStop) : Except CmdStop Unit := if ok then .ok () else .error stop

/-- Every used slot field must be below `NSLOT`, checked in the order of 30_encoding.md R93 (R97, R124). -/
def checkSlots (s : State) : List (SlotIdx × ErrArg) → Except CmdStop Unit
  | [] => .ok ()
  | (k, arg) :: rest => if s.params.nslot ≤ k then .error (.err .badSlot arg) else checkSlots s rest

/-- The modulus `uint32(R[MOD])`, legal from 1 to 2^31 - 1 (40_command_model.md R129). -/
def checkModulus (s : State) : Except CmdStop Nat :=
  if 1 ≤ uint32 s.mod ∧ uint32 s.mod ≤ 2 ^ 31 - 1 then .ok (uint32 s.mod) else .error (.err .badModulus .none)

/-- A shape a source slot may have: 1 to `NMAX` rows and columns (10_state.md R42). -/
def legalShape (nmax : Nat) (sh : Shape) : Bool :=
  1 ≤ sh.rows.toNat && sh.rows.toNat ≤ nmax && 1 ≤ sh.cols.toNat && sh.cols.toNat ≤ nmax

/-- Every source slot must have a legal shape, checked in order (40_command_model.md R124). -/
def checkShapes (s : State) : List (SlotIdx × ErrArg) → Except CmdStop Unit
  | [] => .ok ()
  | (k, arg) :: rest =>
    if legalShape s.params.nmax (shapeAt s k) then checkShapes s rest else .error (.err .badShape arg)

/-- The common prefix after the opcode check: slot indices, the command's own slot rule, the modulus, the source shapes
(40_command_model.md R124). Answers the modulus. `slotRule` is SOLVE_AFF's `DST ≠ DST2`, which comes second. -/
def commonPrefix (s : State) (slots sources : List (SlotIdx × ErrArg)) (slotRule : Bool) : Except CmdStop Nat := do
  checkSlots s slots
  require slotRule (.err .badSlot .dst2)
  let m ← checkModulus s
  checkShapes s sources
  .ok m

/-- A matrix operand as a command sees it: its shape, and its entries reduced into [0, m) (40_command_model.md R130). -/
structure Operand where
  rows : Nat
  cols : Nat
  entries : Mat
  deriving DecidableEq, Repr

/-- Every entry of slot `k` with `i < r` and `j < c` has been written since power-on (40_command_model.md R128). -/
def allWritten (s : State) (k : SlotIdx) (r c : Nat) : Bool :=
  (List.range r).all fun i => (List.range c).all fun j => (entryAt s k i j).isSome

/-- `sint32(E[k][i][j])`; an entry that was never written is stopped on before this is used. -/
def entryInt (s : State) (k : SlotIdx) (i j : Nat) : Int := sint32 ((entryAt s k i j).getD 0#32)

/-- The `r × c` entries of slot `k` as `sint32(E[k][i][j]) mod m`, or `Fault(UNINIT_OPERAND)` where one was not written since
power-on (40_command_model.md R128, R130). -/
def readBlock (s : State) (m : Nat) (k : SlotIdx) (r c : Nat) : Except CmdStop Operand :=
  if allWritten s k r c then .ok ⟨r, c, matOf r c fun i j => entryInt s k i j % m⟩
  else .error (.fault .uninitOperand)

/-- `ReadOperands` for one source slot, in the slot's shape (40_command_model.md R130). -/
def readOperand (s : State) (m : Nat) (k : SlotIdx) : Except CmdStop Operand :=
  readBlock s m k (shapeAt s k).rows.toNat (shapeAt s k).cols.toNat

/-- The scalar operand `sint32(R[SCALAR_A]) mod m` (40_command_model.md R130). -/
def scalarOperand (s : State) (m : Nat) : Int := sint32 s.scalarA % m

/-- `A` must be square: `NOT_SQUARE`, arg 1 (60_exceptions.md R203 order 7). -/
def checkSquare (A : Operand) : Except CmdStop Unit := require (A.rows = A.cols) (.err .notSquare .a)

/-- A solver block must be `n × n`: `DIM_MISMATCH` (60_exceptions.md R203 order 8). -/
def checkDim (n : Nat) (B : Operand) (arg : ErrArg) : Except CmdStop Unit :=
  require (B.rows = n && B.cols = n) (.err .dimMismatch arg)

/-- A matrix must be invertible mod m, by the gcd test alone: `SINGULAR` (42_matrix.md R167). -/
def checkUnit (m n : Nat) (M : Mat) (arg : ErrArg) : Except CmdStop Unit :=
  require (gcdMod m (detMod m n M) = 1) (.err .singular arg)

end Sys2Proof.Machine
end

