-- ==== Sys2Proof/Machine/MatrixCmds.lean ====
section
/-! DEFINITION. The matrix commands DET, ADJ and INV (42_matrix.md). -/

namespace Sys2Proof.Machine

/-- `Exec` of DET (42_matrix.md R160). -/
def detResult (a : SlotIdx) (s : State) : CmdResult := do
  let m ← commonPrefix s [(a, .a)] [(a, .a)] true
  let A ← readOperand s m a
  checkSquare A
  .ok [.detR (detMod m A.rows A.entries)]

/-- DET (42_matrix.md R160): `DET_R <- det(A) mod m`. -/
def execDet (a : SlotIdx) (s : State) : Host.Outcome State Fault Refusal := .next (complete s (detResult a s))

/-- `Exec` of ADJ (42_matrix.md R163). -/
def adjResult (a dst : SlotIdx) (s : State) : CmdResult := do
  let m ← commonPrefix s [(a, .a), (dst, .dst)] [(a, .a)] true
  let A ← readOperand s m a
  checkSquare A
  .ok [.slot dst A.rows A.rows (adjMod m A.rows A.entries)]

/-- ADJ (42_matrix.md R163): slot `DST` gets `adj(A) mod m`. -/
def execAdj (a dst : SlotIdx) (s : State) : Host.Outcome State Fault Refusal := .next (complete s (adjResult a dst s))

/-- `Exec` of INV (42_matrix.md R166). -/
def invResult (a dst : SlotIdx) (s : State) : CmdResult := do
  let m ← commonPrefix s [(a, .a), (dst, .dst)] [(a, .a)] true
  let A ← readOperand s m a
  checkSquare A
  checkUnit m A.rows A.entries .a
  .ok [.slot dst A.rows A.rows (inverseMod m A.rows A.entries)]

/-- INV (42_matrix.md R166): slot `DST` gets the inverse of `A` mod m. -/
def execInv (a dst : SlotIdx) (s : State) : Host.Outcome State Fault Refusal := .next (complete s (invResult a dst s))

end Sys2Proof.Machine
end

