-- ==== Sys2Proof/Machine/ScalarCmds.lean ====
section
/-! DEFINITION. The scalar commands SINV and SGCD (41_scalar.md). -/

namespace Sys2Proof.Machine

/-- `Exec` of SINV (41_scalar.md R150). -/
def sinvResult (s : State) : CmdResult := do
  let m ← commonPrefix s [] [] true
  require (gcdMod m (scalarOperand s m) = 1) (.err .noInverse .none)
  .ok [.scalarR (invMod m (scalarOperand s m))]

/-- SINV (41_scalar.md R150): `SCALAR_R <- inv_m(a)`. -/
def execSinv (s : State) : Host.Outcome State Fault Refusal := .next (complete s (sinvResult s))

/-- `Exec` of SGCD (41_scalar.md R152). -/
def sgcdResult (s : State) : CmdResult := do
  let m ← commonPrefix s [] [] true
  .ok [.scalarR (gcdMod m (scalarOperand s m))]

/-- SGCD (41_scalar.md R152): `SCALAR_R <- gcd(a, m)`. -/
def execSgcd (s : State) : Host.Outcome State Fault Refusal := .next (complete s (sgcdResult s))

end Sys2Proof.Machine
end

