-- ==== Sys2Proof/Machine/SolverCmds.lean ====
section
/-! DEFINITION. The solver commands SOLVE_LIN and SOLVE_AFF (43_solver.md). -/

namespace Sys2Proof.Machine

/-- `Exec` of SOLVE_LIN (43_solver.md R180). -/
def solveLinResult (a b dst : SlotIdx) (s : State) : CmdResult := do
  let m ← commonPrefix s [(a, .a), (b, .b), (dst, .dst)] [(a, .a), (b, .b)] true
  let A ← readOperand s m a
  let B ← readOperand s m b
  checkSquare A
  checkDim A.rows B .b
  checkUnit m A.rows A.entries .a
  let K := mulMod m A.rows (inverseMod m A.rows A.entries) B.entries
  checkUnit m A.rows K .dst
  .ok [.slot dst A.rows A.rows K]

/-- SOLVE_LIN (43_solver.md R180): slot `DST` gets `K` with `X·K ≡ Y (mod m)`. -/
def execSolveLin (a b dst : SlotIdx) (s : State) : Host.Outcome State Fault Refusal :=
  .next (complete s (solveLinResult a b dst s))

/-- `Exec` of SOLVE_AFF (43_solver.md R184). `b` is row 0 of `Y1 - X1·L` (R185). -/
def solveAffResult (a b c d dst dst2 : SlotIdx) (s : State) : CmdResult := do
  let m ← commonPrefix s [(a, .a), (b, .b), (c, .c), (d, .d), (dst, .dst), (dst2, .dst2)]
    [(a, .a), (b, .b), (c, .c), (d, .d)] (dst ≠ dst2)
  let A ← readOperand s m a
  let B ← readOperand s m b
  let C ← readOperand s m c
  let D ← readOperand s m d
  checkSquare A
  checkDim A.rows B .b
  checkDim A.rows C .c
  checkDim A.rows D .d
  let Dm := subMod m A.rows A.entries B.entries
  let Em := subMod m A.rows C.entries D.entries
  checkUnit m A.rows Dm .a
  let L := mulMod m A.rows (inverseMod m A.rows Dm) Em
  checkUnit m A.rows L .dst
  let Bm := subMod m A.rows C.entries (mulMod m A.rows A.entries L)
  .ok [.slot dst A.rows A.rows L, .slot dst2 1 A.rows Bm]

/-- SOLVE_AFF (43_solver.md R184): slot `DST` gets `L` and slot `DST2` gets `b`, with `X·L + 1·b ≡ Y (mod m)`. -/
def execSolveAff (a b c d dst dst2 : SlotIdx) (s : State) : Host.Outcome State Fault Refusal :=
  .next (complete s (solveAffResult a b c d dst dst2 s))

end Sys2Proof.Machine
end

