-- ==== Sys2Proof/Machine/Dispatch.lean ====
section
/-! DEFINITION. The one match that gives each command its meaning (40_command_model.md R122). -/

namespace Sys2Proof.Machine

def exec (i : Instr) (s : State) : Host.Outcome State Fault Refusal :=
  match i with
  | .sinv => Sys2Proof.Machine.execSinv s
  | .sgcd => Sys2Proof.Machine.execSgcd s
  | .det a => Sys2Proof.Machine.execDet a s
  | .adj a dst => Sys2Proof.Machine.execAdj a dst s
  | .inv a dst => Sys2Proof.Machine.execInv a dst s
  | .solveLin a b dst => Sys2Proof.Machine.execSolveLin a b dst s
  | .solveAff a b c d dst dst2 => Sys2Proof.Machine.execSolveAff a b c d dst dst2 s

end Sys2Proof.Machine
end

