-- ==== Sys2Proof/Machine/Engine.lean ====
section
/-! DEFINITION. The engine's step `Complete` (40_command_model.md R125), the events of the schedule (20_memory.md R70), and the
order in which the bus delivers the host's writes (20_memory.md R73). -/

namespace Sys2Proof.Machine

/-- `Exec` of a word with a reserved opcode: `raise CmdError(BAD_OPCODE, 0)` (30_encoding.md R96, 40_command_model.md R124). -/
def reservedResult : CmdResult := .error (.err .badOpcode .none)

/-- `Complete`, enabled exactly when `P = some w` (40_command_model.md R125). With nothing pending the state stays as it is:
the block is idle (70_reset_and_hazards.md R240; logs 7, 8). `exec` itself does not look at the latch (log 18). -/
def engineStep (s : State) : Host.Outcome State Fault Refusal :=
  match s.pending with
  | none => .next s
  | some w =>
    match decodeWord w with
    | .ok i => exec i s
    | .error _ => .next (complete s reservedResult)

/-- One event (20_memory.md R70; 70_reset_and_hazards.md R240). -/
def takeEvent (s : State) : Event → Host.Outcome State Fault Refusal
  | .read addr size => .next (hostRead s addr size)
  | .write addr size v => .next (hostWrite s addr size v)
  | .complete => engineStep s
  | .powerOn => .next (powerOnReset s)

/-- A host write. -/
def Event.isWrite : Event → Bool
  | .read _ _ => false
  | .write _ _ _ => true
  | .complete => false
  | .powerOn => false

/-- Exchange the write `w` with the host write number `k` of the events behind it, counted from 0; with fewer than `k + 1` writes
behind it, `w` itself stays in front. Answers the event in front and the events behind it. -/
def exchangeWrite (w : Event) : Nat → List Event → Event × List Event
  | _, [] => (w, [])
  | k, ev :: rest =>
    if ev.isWrite then
      match k with
      | 0 => (ev, w :: rest)
      | k + 1 => ((exchangeWrite w k rest).1, ev :: (exchangeWrite w k rest).2)
    else ((exchangeWrite w k rest).1, ev :: (exchangeWrite w k rest).2)

/-- The event that reaches the block at the place of `ev`, and the state in which it does. The bus delivers the host's writes in
program order where `BUS_IN_ORDER` is true; where it is false, any write still to come may arrive at a write's place (20_memory.md
R73; free value, log 22). Every other event keeps its place. -/
def arrive (s : State) (ev : Event) (rest : List Event) : Event × State :=
  if s.params.busInOrder || !ev.isWrite then (ev, { s with sched := rest })
  else
    ((exchangeWrite ev (Config.freeArrival s.draws) rest).1,
      { s with sched := (exchangeWrite ev (Config.freeArrival s.draws) rest).2, draws := s.draws + 1 })

/-- A command placed in the pending latch by an accepted `CMD` write, its completion the next event (log 9). -/
def loadCommand (s : State) (w : Word) : State := { accept s w with sched := .complete :: s.sched }

end Sys2Proof.Machine
end

