-- ==== Sys2Proof/Machine/Step.lean ====
section
/-! DEFINITION. One step of the block: the next event of the total order (20_memory.md R70). -/

namespace Sys2Proof.Machine

/-- One step: the next scheduled event, as the bus delivers it (20_memory.md R73); when none is left, the engine's completion step, which a fair run takes
(40_command_model.md R125; log 2). -/
def step (s : State) : Host.Outcome State Fault Refusal :=
  match s.sched with
  | [] => engineStep s
  | ev :: rest => takeEvent (arrive s ev rest).2 (arrive s ev rest).1

/-- `s` with the command of table bits `w` accepted and its completion next (log 9): the block has no program counter, and a
command is placed by a `CMD` write (10_state.md R21, R28). -/
def State.withFetchWord (s : State) (nbits w : Nat) : State := loadCommand s (tableWord nbits w)

end Sys2Proof.Machine
end

