-- ==== Sys2Proof/Safety.lean ====
section
/-! DEFINITION. What counts as a good state, the invariant of the block, and the terms the claims use. -/

namespace Sys2Proof.Machine

/-- A run has a meaning as long as no command has read an entry that was never written: "A faulted state is kept for the rest
of the run and is never a good final state" (40_command_model.md R128). -/
abbrev State.Good (s : State) : Prop := s.fault = none

/-- The byte offsets that hold entry words (10_state.md R22). -/
abbrev EntryByte (p : Params) (a : Nat) : Prop := 0x1000 ≤ a ∧ a < apertureSize p.nmax p.nslot

/-- The entry storage is canonical, lies in the entry part of the aperture, and is written in whole words only
(10_state.md R43, 20_memory.md R62). -/
abbrev State.MemInv (s : State) : Prop :=
  s.mem.wf ∧
  (∀ c ∈ s.mem, EntryByte s.params c.1) ∧
  (∀ c ∈ s.mem, (s.mem.readWord (c.1 / 4 * 4)).isSome = true)

/-- What `STATUS` is while a command is pending: acceptance wrote it and no bus write can set these bits
(40_command_model.md R121, 10_state.md R31 to R36). -/
abbrev State.PendingInv (s : State) : Prop :=
  ∀ w ∈ s.pending, s.cmd = w ∧ s.done = false ∧ s.err = false ∧ s.errCode = 0#8 ∧ s.errArg = 0#4

/-- The invariant of the block. -/
abbrev State.Inv (s : State) : Prop :=
  s.params.Legal ∧
  s.busy = s.pending.isSome ∧
  s.PendingInv ∧
  s.lastOp = opField s.cmd ∧
  s.errCode.toNat ≤ 8 ∧
  s.errArg.toNat ≤ 6 ∧
  s.shapes.length = s.params.nslot ∧
  s.scalarR.msb = false ∧
  s.detR.msb = false ∧
  s.MemInv

/-- The modulus is legal (40_command_model.md R129). -/
abbrev State.ModulusLegal (s : State) : Prop := 1 ≤ uint32 s.mod ∧ uint32 s.mod ≤ 2 ^ 31 - 1

/-- Slot `k` exists, has the legal shape `r × c`, and its entries inside that shape are written and read, as signed integers,
as the matrix `A` (10_state.md R42, R43; 40_command_model.md R130). -/
abbrev State.SlotHolds (s : State) (k : SlotIdx) (r c : Nat) (A : Matrix (Fin r) (Fin c) ℤ) : Prop :=
  k < s.params.nslot ∧ 1 ≤ r ∧ r ≤ s.params.nmax ∧ 1 ≤ c ∧ c ≤ s.params.nmax ∧
  (shapeAt s k).rows.toNat = r ∧ (shapeAt s k).cols.toNat = c ∧
  ∀ (i : Fin r) (j : Fin c), (entryAt s k i j).map sint32 = some (A i j)

/-- What slot `k` holds after a command has written the `r × c` matrix `B` to it (40_command_model.md R126). -/
abbrev State.SlotWritten (t : State) (k : SlotIdx) (r c : Nat) (B : Matrix (Fin r) (Fin c) ℤ) : Prop :=
  (shapeAt t k).rows.toNat = r ∧ (shapeAt t k).cols.toNat = c ∧
  ∀ (i : Fin r) (j : Fin c), (entryAt t k i j).map sint32 = some (B i j)

/-- Every entry of a matrix lies in [0, m) (40_command_model.md R137). -/
abbrev InRange (m : Nat) {r c : Nat} (B : Matrix (Fin r) (Fin c) ℤ) : Prop := ∀ i j, 0 ≤ B i j ∧ B i j < m

/-- `STATUS`, `BUSY` and the latch after a successful completion (40_command_model.md R125): `BUSY` 0, `DONE` 1, nothing
pending, and the error fields as acceptance left them. -/
abbrev State.CompletedOk (s t : State) : Prop :=
  t.busy = false ∧ t.done = true ∧ t.pending = none ∧
  t.err = s.err ∧ t.errCode = s.errCode ∧ t.errArg = s.errArg

/-- `s` after a completion with `Err(code, arg)`: only `STATUS` and the latch differ (40_command_model.md R125, R127). -/
def State.failedWith (s : State) (code : BitVec 8) (arg : BitVec 4) : State :=
  { s with err := true, errCode := code, errArg := arg, busy := false, done := true, pending := none }

/-- What no command writes: the parameters, `CMD`, `BUSYWR`, `LAST_OP`, `IRQ_EN`, `MOD`, `SCALAR_A` and the model's own fields
(40_command_model.md R125, R126). -/
abbrev State.SameControl (s t : State) : Prop :=
  t.params = s.params ∧ t.cmd = s.cmd ∧ t.busywr = s.busywr ∧ t.lastOp = s.lastOp ∧ t.doneIe = s.doneIe ∧
  t.errIe = s.errIe ∧ t.mod = s.mod ∧ t.scalarA = s.scalarA ∧ t.draws = s.draws ∧ t.resp = s.resp ∧ t.sched = s.sched

/-- What of an event the bus may not move: the event, but for a host write only that one stands there (20_memory.md R73). -/
def Event.place (ev : Event) : Option Event := if ev.isWrite then none else some ev

/-- A byte of the words a command stores for an `r × c` result in slot `k`, at the addresses `writeBlock` uses
(40_command_model.md R126). -/
abbrev StoredByte (nmax : Nat) (k : SlotIdx) (r c : Nat) (a : Nat) : Prop :=
  ∃ i < r, ∃ j < c, entryAddr nmax k i j ≤ a ∧ a < entryAddr nmax k i j + 4

/-- The used slot fields of a command with their `ERR_ARG` values, in the order of 30_encoding.md R93 (10_state.md R34). -/
def slotArgs : Instr → List (SlotIdx × BitVec 4)
  | .sinv => []
  | .sgcd => []
  | .det a => [(a, 1#4)]
  | .adj a dst => [(a, 1#4), (dst, 5#4)]
  | .inv a dst => [(a, 1#4), (dst, 5#4)]
  | .solveLin a b dst => [(a, 1#4), (b, 2#4), (dst, 5#4)]
  | .solveAff a b c d dst dst2 => [(a, 1#4), (b, 2#4), (c, 3#4), (d, 4#4), (dst, 5#4), (dst2, 6#4)]

/-- The source slots of a command with their `ERR_ARG` values, in the order of 30_encoding.md R93 (10_state.md R34). -/
def sourceArgs : Instr → List (SlotIdx × BitVec 4)
  | .sinv => []
  | .sgcd => []
  | .det a => [(a, 1#4)]
  | .adj a _ => [(a, 1#4)]
  | .inv a _ => [(a, 1#4)]
  | .solveLin a b _ => [(a, 1#4), (b, 2#4)]
  | .solveAff a b c d _ _ => [(a, 1#4), (b, 2#4), (c, 3#4), (d, 4#4)]

/-- The one command that may not name a destination twice does not (30_encoding.md R97). -/
def destsDiffer : Instr → Bool
  | .sinv => true
  | .sgcd => true
  | .det _ => true
  | .adj _ _ => true
  | .inv _ _ => true
  | .solveLin _ _ _ => true
  | .solveAff _ _ _ _ dst dst2 => dst ≠ dst2

/-- The slot fields of a command pass (60_exceptions.md R203 orders 2 and 3). -/
abbrev State.SlotsPass (s : State) (i : Instr) : Prop :=
  (∀ p ∈ slotArgs i, p.1 < s.params.nslot) ∧ destsDiffer i = true

/-- A shape a source slot may have (40_command_model.md R124). -/
abbrev State.ShapeLegal (s : State) (k : SlotIdx) : Prop :=
  1 ≤ (shapeAt s k).rows.toNat ∧ (shapeAt s k).rows.toNat ≤ s.params.nmax ∧
  1 ≤ (shapeAt s k).cols.toNat ∧ (shapeAt s k).cols.toNat ≤ s.params.nmax

/-- The bits of a command word that its opcode uses: `OP` and the used slot fields (30_encoding.md R90, R93). -/
def usedMask : Instr → Word
  | .sinv => 0x000000FF#32
  | .sgcd => 0x000000FF#32
  | .det _ => 0x00000FFF#32
  | .adj _ _ => 0x0F000FFF#32
  | .inv _ _ => 0x0F000FFF#32
  | .solveLin _ _ _ => 0x0F00FFFF#32
  | .solveAff _ _ _ _ _ _ => 0xFFFFFFFF#32

end Sys2Proof.Machine
end

