-- ==== Sys2Proof/Certificates/Slice0/Obligations.lean ====
section
/-! DEFINITION. What the model claims of the block: one `def Obligations.<Name> : Prop` per statement, with the rules of spec/ it
rests on. `m` is always `uint32 s.mod`, the modulus. -/

open Sys2Proof Sys2Proof.Machine

/-! ### Encoding -/

/-- Decoding an encoded well-formed command gives it back, from the word and from its bytes in bus order, for every value of
every slot field (30_encoding.md R90, R92, R98; 20_memory.md R61). -/
def Obligations.DecodeOfEncodeIsTheCommand : Prop :=
  ∀ i : Instr, i.WellFormed →
    decodeWord (encode i) = .ok i ∧ decodeBytes (busBytes (encode i)) = .ok (i, [])

/-- The word of each command is its opcode with each slot index at its field's place (30_encoding.md R98). -/
def Obligations.EncodeIsTheAssemblerWord : Prop :=
  encode .sinv = 0x00000001#32 ∧ encode .sgcd = 0x00000002#32 ∧
  ∀ a < 16, ∀ b < 16, ∀ c < 16, ∀ d < 16, ∀ dst < 16, ∀ dst2 < 16,
    encode (.det a) = BitVec.ofNat 32 (0x10 + a * 2 ^ 8) ∧
    encode (.adj a dst) = BitVec.ofNat 32 (0x11 + a * 2 ^ 8 + dst * 2 ^ 24) ∧
    encode (.inv a dst) = BitVec.ofNat 32 (0x12 + a * 2 ^ 8 + dst * 2 ^ 24) ∧
    encode (.solveLin a b dst) = BitVec.ofNat 32 (0x20 + a * 2 ^ 8 + b * 2 ^ 12 + dst * 2 ^ 24) ∧
    encode (.solveAff a b c d dst dst2) =
      BitVec.ofNat 32 (0x21 + a * 2 ^ 8 + b * 2 ^ 12 + c * 2 ^ 16 + d * 2 ^ 20 + dst * 2 ^ 24 + dst2 * 2 ^ 28)

/-- "Unused fields (rule R93) are ignored: their values have no effect on the command" (30_encoding.md R95): a word that agrees
with `w` on the opcode and the used fields is the same command. What is decoded is well formed. -/
def Obligations.UnusedFieldsAreIgnored : Prop :=
  ∀ (w : Word) (i : Instr), decodeWord w = .ok i →
    i.WellFormed ∧ i.opcode = opField w ∧
    ∀ w' : Word, w' &&& usedMask i = w &&& usedMask i → decodeWord w' = .ok i

/-- The 249 reserved opcodes are accepted and complete with `BAD_OPCODE`, arg 0, writing no result; the all-zero word is one
of them (30_encoding.md R96). -/
def Obligations.ReservedOpcodesReportBadOpcode : Prop :=
  ((List.range 256).filter fun n => !([0x01, 0x02, 0x10, 0x11, 0x12, 0x20, 0x21].contains n)).length = 249 ∧
  ∀ w : Word, opField w ∉ [0x01#8, 0x02#8, 0x10#8, 0x11#8, 0x12#8, 0x20#8, 0x21#8] →
    decodeWord w = .error (.reservedOpcode (opField w)) ∧
    (∀ s : State, s.params.Legal → s.busy = false → memWrite s 0x010 4 w = (.done, accept s w)) ∧
    (∀ s : State, s.pending = some w → engineStep s = .next (s.failedWith 8#8 0#4))

/-- The seven example words of 30_encoding.md R101, in both directions. -/
def Obligations.EncodingExamples : Prop :=
  decodeWord 0x00000001#32 = .ok .sinv ∧
  decodeWord 0x00000002#32 = .ok .sgcd ∧
  decodeWord 0x00000310#32 = .ok (.det 3) ∧
  decodeWord 0x02000111#32 = .ok (.adj 1 2) ∧
  decodeWord 0x02000012#32 = .ok (.inv 0 2) ∧
  decodeWord 0x02001020#32 = .ok (.solveLin 0 1 2) ∧
  decodeWord 0x54321021#32 = .ok (.solveAff 0 1 2 3 4 5) ∧
  encode .sinv = 0x00000001#32 ∧ encode .sgcd = 0x00000002#32 ∧ encode (.det 3) = 0x00000310#32 ∧
  encode (.adj 1 2) = 0x02000111#32 ∧ encode (.inv 0 2) = 0x02000012#32 ∧
  encode (.solveLin 0 1 2) = 0x02001020#32 ∧ encode (.solveAff 0 1 2 3 4 5) = 0x54321021#32

/-! ### The step -/

/-- When a command is pending and the engine's completion is the next event (scheduled, or the schedule is used up), the step is
`exec` of the command its word decodes to, and for a reserved opcode the completion with `BAD_OPCODE`, arg 0; around it the step
only takes the event off the schedule (log 2). -/
def Obligations.StepRunsTheDecodedCommand : Prop :=
  ∀ (s : State) (w : Word), s.pending = some w →
    (∀ i : Instr, decodeWord w = .ok i →
      (s.sched = [] → step s = exec i s) ∧
      (∀ rest, s.sched = .complete :: rest → step s = exec i { s with sched := rest })) ∧
    (opField w ∉ [0x01#8, 0x02#8, 0x10#8, 0x11#8, 0x12#8, 0x20#8, 0x21#8] →
      (s.sched = [] → step s = .next (s.failedWith 8#8 0#4)) ∧
      (∀ rest, s.sched = .complete :: rest → step s = .next (({ s with sched := rest } : State).failedWith 8#8 0#4)))

/-- The model's choice, logs 2, 4, 7 and 8: a step takes the first event of the schedule (a write, where the bus keeps the host's
order, `BUS_IN_ORDER`; `HostWritesArriveInProgramOrder` says the rest); a power-on reset leads to the power-on
state, the rest of the schedule and the count of free values going on; a completion event with nothing pending, and a step with
nothing scheduled and nothing pending, leave the state as it is. -/
def Obligations.StepTakesTheNextEvent : Prop :=
  ∀ (s : State) (rest : List Event),
    (∀ addr size, s.sched = .read addr size :: rest → step s = .next (hostRead { s with sched := rest } addr size)) ∧
    (∀ addr size v, s.params.busInOrder = true → s.sched = .write addr size v :: rest →
      step s = .next (hostWrite { s with sched := rest } addr size v)) ∧
    (s.sched = .powerOn :: rest →
      step s = .next { State.powerOn s.params with draws := s.draws, sched := rest }) ∧
    (s.sched = .complete :: rest → s.pending = none → step s = .next { s with sched := rest }) ∧
    (s.sched = [] → s.pending = none → step s = .next s)

/-- The order in which the host's writes arrive (20_memory.md R73; logs 2, 22). With `BUS_IN_ORDER` true every step takes the front
of the schedule, so writes arrive in the order it lists. With it false, at the place of a write arrives some write of those still
to come, and what is left of the schedule is the same events, every event but the writes at its own place. -/
def Obligations.HostWritesArriveInProgramOrder : Prop :=
  ∀ (s : State) (ev : Event) (rest : List Event), s.sched = ev :: rest →
    (s.params.busInOrder = true → ∃ t, step s = .next t ∧ t.sched = rest) ∧
    (∀ addr size v, s.params.busInOrder = false → ev = .write addr size v →
      ∃ addr' size' v' rest', (ev :: rest).Perm (.write addr' size' v' :: rest') ∧
        rest'.map Event.place = rest.map Event.place ∧
        step s = .next (hostWrite { s with sched := rest', draws := s.draws + 1 } addr' size' v'))

/-- Every command completes (40_command_model.md R140): `exec` and the engine's step always answer a next state, and after it
nothing is pending, `BUSY` is 0 and `DONE` is 1. -/
def Obligations.EveryCommandCompletes : Prop :=
  (∀ (i : Instr) (s : State), ∃ t, exec i s = .next t ∧ t.pending = none ∧ t.busy = false ∧ t.done = true) ∧
  (∀ (s : State) (w : Word), s.pending = some w →
    ∃ t, engineStep s = .next t ∧ t.pending = none ∧ t.busy = false ∧ t.done = true)

/-- A command placed with `withFetchWord` runs in the very next step, on the state as acceptance leaves it (log 9). -/
def Obligations.PlacedCommandRunsNext : Prop :=
  ∀ (s : State) (n : Nat) (i : Instr), decodeWord (BitVec.ofNat 32 n) = .ok i →
    step (s.withFetchWord 32 n) = exec i (accept s (BitVec.ofNat 32 n))

/-! ### Bus -/

/-- A refused access changes nothing, `BUSYWR` included, and a refused read returns no data: an access that is not four bytes, is
not aligned, or lies past the aperture (20_memory.md R63). -/
def Obligations.RefusedAccessChangesNothing : Prop :=
  ∀ (s : State) (off size : Nat) (v : Word),
    size ≠ 4 ∨ off % 4 ≠ 0 ∨ 0x1000 + 4 * s.params.nslot * s.params.nmax * s.params.nmax ≤ off →
    memRead s off size = (.busError, s) ∧ memWrite s off size v = (.busError, s)

/-- The model's reading of "outside the aperture" for a platform address below `BASE` (log 12): a bus error, and the block's
state is unchanged; the model records the answer (log 3). -/
def Obligations.AddressBelowBaseIsRefused : Prop :=
  ∀ (s : State) (addr size : Nat) (v : Word), addr < s.params.base →
    hostRead s addr size = { s with resp := some .busError } ∧
    hostWrite s addr size v = { s with resp := some .busError }

/-- A host transaction at or above `BASE` is the transaction at its offset in the aperture, `addr - BASE` (20_memory.md R60, R68);
the model records its answer (log 3). -/
def Obligations.HostTransactionReachesItsOffset : Prop :=
  ∀ (s : State) (addr size : Nat) (v : Word), s.params.base ≤ addr →
    hostRead s addr size =
      { (memRead s (addr - s.params.base) size).2 with resp := some (memRead s (addr - s.params.base) size).1 } ∧
    hostWrite s addr size v =
      { (memWrite s (addr - s.params.base) size v).2 with resp := some (memWrite s (addr - s.params.base) size v).1 }

/-- What a read of each register returns, and of every reserved offset (20_memory.md R64; 10_state.md R24 to R29, R41, R42). -/
def Obligations.RegisterReads : Prop :=
  ∀ s : State, s.params.Legal →
    memRead s 0x000 4 = (.data 0x4D534947#32, s) ∧
    memRead s 0x004 4 = (.data (BitVec.ofNat 32 (0x00010000 + s.params.nslot * 256 + s.params.nmax)), s) ∧
    memRead s 0x008 4 = (.data 0#32, s) ∧
    memRead s 0x00C 4 = (.data (BitVec.ofNat 32 (s.errIe.toNat * 2 + s.doneIe.toNat)), s) ∧
    memRead s 0x010 4 = (.data s.cmd, s) ∧
    memRead s 0x014 4 = (.data (BitVec.ofNat 32 (s.lastOp.toNat * 2 ^ 16 + s.errCode.toNat * 2 ^ 8 +
      s.errArg.toNat * 2 ^ 4 + s.busywr.toNat * 8 + s.err.toNat * 4 + s.done.toNat * 2 + s.busy.toNat)), s) ∧
    memRead s 0x018 4 = (.data s.mod, s) ∧
    memRead s 0x01C 4 = (.data s.scalarA, s) ∧
    memRead s 0x020 4 = (.data s.scalarR, s) ∧
    memRead s 0x024 4 = (.data s.detR, s) ∧
    (∀ k < s.params.nslot, memRead s (0x100 + 4 * k) 4 =
      (.data (BitVec.ofNat 32 ((shapeAt s k).cols.toNat * 2 ^ 8 + (shapeAt s k).rows.toNat)), s)) ∧
    (∀ off, off % 4 = 0 → 0x028 ≤ off ∧ off ≤ 0x0FC ∨ 0x100 + 4 * s.params.nslot ≤ off ∧ off ≤ 0xFFC →
      memRead s off 4 = (.data 0#32, s))

/-- What a read of an entry word returns: the word written; for an entry not written since power-on, a word nothing constrains
(20_memory.md R64, 70_reset_and_hazards.md R243), the model's next free word (log 4). -/
def Obligations.EntryReads : Prop :=
  ∀ (s : State) (k i j : Nat), k < s.params.nslot → i < s.params.nmax → j < s.params.nmax →
    (∀ w, entryAt s k i j = some w →
      memRead s (0x1000 + 4 * ((k * s.params.nmax + i) * s.params.nmax + j)) 4 = (.data w, s)) ∧
    (entryAt s k i j = none →
      memRead s (0x1000 + 4 * ((k * s.params.nmax + i) * s.params.nmax + j)) 4 =
        (.data (Config.freeWord s.draws), { s with draws := s.draws + 1 }))

/-- "A read has no side effect on any state" (20_memory.md R64): a host read changes at most the model's own record of the
answer and its count of free values (logs 3, 4). -/
def Obligations.ReadsHaveNoSideEffect : Prop :=
  ∀ (s : State) (addr size : Nat),
    ∃ (r : BusResp) (n : Nat), hostRead s addr size = { s with resp := some r, draws := n }

/-- What each write that is not dropped does (20_memory.md R65): to `CTRL`, `IRQ_EN`, `STATUS`, read-only and reserved offsets in
every state, to the other registers while no command is pending. -/
def Obligations.WriteEffects : Prop :=
  ∀ (s : State) (v : Word), s.params.Legal →
    memWrite s 0x008 4 v = (.done, if v.getLsbD 0 then softReset s else s) ∧
    memWrite s 0x00C 4 v = (.done, { s with doneIe := v.getLsbD 0, errIe := v.getLsbD 1 }) ∧
    memWrite s 0x014 4 v = (.done, { s with
      done := if v.getLsbD 1 then false else s.done
      err := if v.getLsbD 2 then false else s.err
      busywr := if v.getLsbD 3 then false else s.busywr }) ∧
    (∀ off, off = 0x000 ∨ off = 0x004 ∨ off = 0x020 ∨ off = 0x024 ∨
        off % 4 = 0 ∧ (0x028 ≤ off ∧ off ≤ 0x0FC ∨ 0x100 + 4 * s.params.nslot ≤ off ∧ off ≤ 0xFFC) →
      memWrite s off 4 v = (.done, s)) ∧
    (s.busy = false →
      memWrite s 0x010 4 v = (.done, accept s v) ∧
      memWrite s 0x018 4 v = (.done, { s with mod := v }) ∧
      memWrite s 0x01C 4 v = (.done, { s with scalarA := v }) ∧
      (∀ k < s.params.nslot, s.shapes.length = s.params.nslot → ∃ t, memWrite s (0x100 + 4 * k) 4 v = (.done, t) ∧
        t = { s with shapes := t.shapes } ∧ t.shapes.length = s.shapes.length ∧
        (shapeAt t k).rows = v.extractLsb' 0 8 ∧ (shapeAt t k).cols = v.extractLsb' 8 8 ∧
        ∀ k', k' ≠ k → shapeAt t k' = shapeAt s k') ∧
      (∀ k < s.params.nslot, ∀ i < s.params.nmax, ∀ j < s.params.nmax, ∃ t,
        memWrite s (0x1000 + 4 * ((k * s.params.nmax + i) * s.params.nmax + j)) 4 v = (.done, t) ∧
        t = { s with mem := t.mem } ∧ entryAt t k i j = some v ∧
        ∀ a, ¬ (entryAddr s.params.nmax k i j ≤ a ∧ a < entryAddr s.params.nmax k i j + 4) →
          t.mem.read a = s.mem.read a))

/-- While `BUSY` is 1, writes to CMD, MOD, SCALAR_A, SHAPE and ENTRY are dropped and set `BUSYWR`; writes to CTRL, IRQ_EN and
STATUS take effect; writes to read-only and reserved offsets are ignored and do not set `BUSYWR` (20_memory.md R66). -/
def Obligations.BusyWrites : Prop :=
  ∀ (s : State) (v : Word), s.params.Legal → s.busy = true →
    (∀ off, off = 0x010 ∨ off = 0x018 ∨ off = 0x01C ∨ (∃ k < s.params.nslot, off = 0x100 + 4 * k) ∨
        (∃ k < s.params.nslot, ∃ i < s.params.nmax, ∃ j < s.params.nmax,
          off = 0x1000 + 4 * ((k * s.params.nmax + i) * s.params.nmax + j)) →
      memWrite s off 4 v = (.done, { s with busywr := true })) ∧
    memWrite s 0x008 4 v = (.done, if v.getLsbD 0 then softReset s else s) ∧
    memWrite s 0x00C 4 v = (.done, { s with doneIe := v.getLsbD 0, errIe := v.getLsbD 1 }) ∧
    memWrite s 0x014 4 v = (.done, clearStatus s v) ∧
    (∀ off, off = 0x000 ∨ off = 0x004 ∨ off = 0x020 ∨ off = 0x024 ∨
        off % 4 = 0 ∧ (0x028 ≤ off ∧ off ≤ 0x0FC ∨ 0x100 + 4 * s.params.nslot ≤ off ∧ off ≤ 0xFFC) →
      memWrite s off 4 v = (.done, s))

/-- `Accept(w)`: what a `CMD` write does while idle, for every word, and `IRQ` falls (40_command_model.md R121). -/
def Obligations.AcceptStartsTheCommand : Prop :=
  ∀ (s : State) (w : Word), s.params.Legal → s.busy = false →
    ∃ t, memWrite s 0x010 4 w = (.done, t) ∧ irq t = false ∧
      t = { s with cmd := w, pending := some w, busy := true, done := false, err := false,
                   errCode := 0#8, errArg := 0#4, lastOp := w.extractLsb' 0 8 }

/-! ### Interrupt -/

/-- The level output `IRQ` is a function of the state, and 0 after either reset (10_state.md R45). -/
def Obligations.InterruptOutput : Prop :=
  (∀ s : State, irq s = true ↔ (s.done = true ∧ s.doneIe = true) ∨ (s.err = true ∧ s.errIe = true)) ∧
  (∀ p : Params, irq (State.powerOn p) = false) ∧
  (∀ s : State, irq (softReset s) = false)

/-- Clearing an enable masks `IRQ` without clearing the pending bits; setting it again re-asserts `IRQ` while a bit is pending
(60_exceptions.md R210). -/
def Obligations.MaskingKeepsInterruptPending : Prop :=
  ∀ s : State, s.params.Legal → ∃ t u,
    memWrite s 0x00C 4 0#32 = (.done, t) ∧ irq t = false ∧ t.done = s.done ∧ t.err = s.err ∧
    memWrite t 0x00C 4 3#32 = (.done, u) ∧ (irq u = true ↔ s.done = true ∨ s.err = true)

/-! ### Reset -/

/-- The power-on values of every register as the host reads them, the latch, the fault mark, the entries and `IRQ`, for every
legal `NMAX` and `NSLOT`; and no command runs (70_reset_and_hazards.md R240, R244). -/
def Obligations.PowerOnValues : Prop :=
  ∀ p : Params, p.Legal →
    memRead (State.powerOn p) 0x000 4 = (.data 0x4D534947#32, State.powerOn p) ∧
    memRead (State.powerOn p) 0x004 4 =
      (.data (BitVec.ofNat 32 (0x00010000 + p.nslot * 256 + p.nmax)), State.powerOn p) ∧
    (∀ off ∈ [0x008, 0x00C, 0x010, 0x014, 0x018, 0x01C, 0x020, 0x024],
      memRead (State.powerOn p) off 4 = (.data 0#32, State.powerOn p)) ∧
    (∀ k < p.nslot, memRead (State.powerOn p) (0x100 + 4 * k) 4 = (.data 0#32, State.powerOn p)) ∧
    (∀ k i j, entryAt (State.powerOn p) k i j = none) ∧
    (State.powerOn p).pending = none ∧ (State.powerOn p).fault = none ∧ irq (State.powerOn p) = false ∧
    engineStep (State.powerOn p) = .next (State.powerOn p)

/-- Soft reset, in every state: every register and the latch as after power-on, the pending command discarded for good, entry
words and the model's fault mark kept; a `CTRL` write without bit 0 does nothing (70_reset_and_hazards.md R241, 10_state.md R26). -/
def Obligations.SoftResetKeepsEntries : Prop :=
  ∀ (s : State) (v : Word), s.params.Legal →
    (v.getLsbD 0 = false → memWrite s 0x008 4 v = (.done, s)) ∧
    (v.getLsbD 0 = true → ∃ t, memWrite s 0x008 4 v = (.done, t) ∧
      t.params = s.params ∧ t.mem = s.mem ∧ t.fault = s.fault ∧ t.pending = none ∧ engineStep t = .next t ∧
      t.busy = false ∧ t.done = false ∧ t.err = false ∧ t.busywr = false ∧ t.errArg = 0#4 ∧ t.errCode = 0#8 ∧
      t.lastOp = 0#8 ∧ t.doneIe = false ∧ t.errIe = false ∧ t.cmd = 0#32 ∧ t.mod = 0#32 ∧ t.scalarA = 0#32 ∧
      t.scalarR = 0#32 ∧ t.detR = 0#32 ∧ ∀ k, shapeAt t k = ⟨0#8, 0#8⟩)

/-! ### Invariants and rules of the whole machine -/

/-- The invariant holds after power-on reset, for every legal `NMAX` and `NSLOT`, and at the state after reset. -/
def Obligations.InvariantAtReset : Prop :=
  State.reset.Inv ∧ ∀ p : Params, p.Legal → (State.powerOn p).Inv

/-- Every step keeps the invariant: `BUSY` says whether a command is pending, a pending command's `STATUS` is as acceptance
wrote it, `LAST_OP` is the opcode of `CMD`, `ERR_CODE` is at most 8 and `ERR_ARG` at most 6, there are `NSLOT` shapes, the result
registers have bit 31 clear, and the entry storage is canonical, inside the aperture and written in whole words. -/
def Obligations.StepKeepsTheInvariant : Prop :=
  ∀ s t : State, s.Inv → step s = .next t → t.Inv

/-- No step changes the parameters of the block (00_scope.md R6, 10_state.md R25). -/
def Obligations.ParametersNeverChange : Prop :=
  ∀ s t : State, step s = .next t → t.params = s.params

/-- A command's operands, and what the host can read of its results, do not change while it is pending: whatever step is taken,
if a command is still pending afterwards it is the same one, and MOD, SCALAR_A, the shapes, the entries and the result registers
are as they were (20_memory.md R66, R72, R74). -/
def Obligations.PendingCommandKeepsItsOperands : Prop :=
  ∀ (s t : State) (w : Word), s.Inv → s.pending = some w → step s = .next t → t.pending ≠ none →
    t.pending = some w ∧ t.cmd = w ∧ t.mod = s.mod ∧ t.scalarA = s.scalarA ∧ t.shapes = s.shapes ∧ t.mem = s.mem ∧
    t.scalarR = s.scalarR ∧ t.detR = s.detR

/-- The model's fault mark stays for the rest of the run: only a power-on reset clears it (40_command_model.md R128,
70_reset_and_hazards.md R240, R241). -/
def Obligations.FaultMarkStays : Prop :=
  ∀ (s t : State) (f : Fault), s.fault = some f → step s = .next t → (∀ rest, s.sched ≠ .powerOn :: rest) →
    t.fault = some f

/-- `Exec` reads only the parameters, MOD, SCALAR_A and the shapes and entries of its source slots (40_command_model.md R122):
two states that agree there get the same outcome (the same error or fault mark, or the same results in the same places), whatever
else they hold. -/
def Obligations.OutcomeDependsOnOperandsOnly : Prop :=
  ∀ (i : Instr) (s s' : State), s.Inv → s'.Inv → s'.params = s.params → s'.mod = s.mod → s'.scalarA = s.scalarA →
    (∀ p ∈ sourceArgs i, shapeAt s' p.1 = shapeAt s p.1 ∧
      ∀ x < s.params.nmax, ∀ y < s.params.nmax, entryAt s' p.1 x y = entryAt s p.1 x y) →
    ∃ t t', exec i s = .next t ∧ exec i s' = .next t' ∧
      ((t.err = s.err ∧ t'.err = s'.err ∧ t.errCode = s.errCode ∧ t'.errCode = s'.errCode ∧
          t.errArg = s.errArg ∧ t'.errArg = s'.errArg) ∨
        (t.err = true ∧ t'.err = true ∧ t'.errCode = t.errCode ∧ t'.errArg = t.errArg)) ∧
      ((t.fault = s.fault ∧ t'.fault = s'.fault) ∨ t'.fault = t.fault) ∧
      ((t.scalarR = s.scalarR ∧ t'.scalarR = s'.scalarR) ∨ t'.scalarR = t.scalarR) ∧
      ((t.detR = s.detR ∧ t'.detR = s'.detR) ∨ t'.detR = t.detR) ∧
      ∀ k < s.params.nslot,
        (shapeAt t k = shapeAt s k ∧ shapeAt t' k = shapeAt s' k ∧
          ∀ x < s.params.nmax, ∀ y < s.params.nmax, entryAt t k x y = entryAt s k x y ∧ entryAt t' k x y = entryAt s' k x y) ∨
        (shapeAt t' k = shapeAt t k ∧
          ∀ x < (shapeAt t k).rows.toNat, ∀ y < (shapeAt t k).cols.toNat, entryAt t' k x y = entryAt t k x y)

/-! ### Frames -/

/-- A command that ends with an error writes no result: `SCALAR_R`, `DET_R`, every shape and every entry keep their values, and
only `STATUS` changes, with the latch (40_command_model.md R127). -/
def Obligations.ErrorsWriteNoResult : Prop :=
  ∀ (i : Instr) (s t : State), exec i s = .next t → s.err = false → t.err = true →
    t = { s with err := true, errCode := t.errCode, errArg := t.errArg, busy := false, done := true, pending := none } ∧
    t.errCode ≠ 0#8

/-- SINV and SGCD change nothing but `SCALAR_R`, `STATUS` and the latch (41_scalar.md R150, R152). -/
def Obligations.ScalarCommandsFrame : Prop :=
  ∀ (i : Instr) (s t : State), i = .sinv ∨ i = .sgcd → exec i s = .next t →
    s.SameControl t ∧ t.detR = s.detR ∧ t.shapes = s.shapes ∧ t.fault = s.fault ∧
    ∀ a, t.mem.read a = s.mem.read a

/-- DET changes nothing but `DET_R`, `STATUS`, the latch and the fault mark; no slot is written (42_matrix.md R160). -/
def Obligations.DetFrame : Prop :=
  ∀ (a : SlotIdx) (s t : State), exec (.det a) s = .next t →
    s.SameControl t ∧ t.scalarR = s.scalarR ∧ t.shapes = s.shapes ∧
    ∀ x, t.mem.read x = s.mem.read x

/-- ADJ, INV and SOLVE_LIN change nothing but `SHAPE[DST]`, the `n × n` entries of `DST` (with `n = ROWS` of source `A`),
`STATUS`, the latch and the fault mark (42_matrix.md R163, R166; 43_solver.md R180; 40_command_model.md R126). -/
def Obligations.OneSlotCommandsFrame : Prop :=
  ∀ (i : Instr) (a dst : SlotIdx) (s t : State),
    i = .adj a dst ∨ i = .inv a dst ∨ (∃ b, i = .solveLin a b dst) → exec i s = .next t →
    s.SameControl t ∧ t.scalarR = s.scalarR ∧ t.detR = s.detR ∧ t.shapes.length = s.shapes.length ∧
    (∀ k, k ≠ dst → shapeAt t k = shapeAt s k) ∧
    ∀ x, ¬ StoredByte s.params.nmax dst (shapeAt s a).rows.toNat (shapeAt s a).rows.toNat x →
      t.mem.read x = s.mem.read x

/-- SOLVE_AFF changes nothing but `SHAPE[DST]`, `SHAPE[DST2]`, the `n × n` entries of `DST`, the first `n` entries of row 0 of
`DST2` (with `n = ROWS` of source `A`), `STATUS`, the latch and the fault mark (43_solver.md R184; 40_command_model.md R126). -/
def Obligations.SolveAffFrame : Prop :=
  ∀ (a b c d dst dst2 : SlotIdx) (s t : State), exec (.solveAff a b c d dst dst2) s = .next t →
    s.SameControl t ∧ t.scalarR = s.scalarR ∧ t.detR = s.detR ∧ t.shapes.length = s.shapes.length ∧
    (∀ k, k ≠ dst → k ≠ dst2 → shapeAt t k = shapeAt s k) ∧
    ∀ x, ¬ StoredByte s.params.nmax dst (shapeAt s a).rows.toNat (shapeAt s a).rows.toNat x →
      ¬ StoredByte s.params.nmax dst2 1 (shapeAt s a).rows.toNat x →
      t.mem.read x = s.mem.read x

/-! ### The common checks, in the order of 60_exceptions.md R203 -/

/-- The first used slot field with an index of `NSLOT` or more is reported as `BAD_SLOT` with that field's arg, before any other
check; SOLVE_AFF with `DST = DST2` in range is `BAD_SLOT`, arg 6 (30_encoding.md R97). -/
def Obligations.BadSlotNamesTheFirstField : Prop :=
  (∀ (i : Instr) (s : State) (k : SlotIdx) (arg : BitVec 4),
    (slotArgs i).find? (fun p => decide (s.params.nslot ≤ p.1)) = some (k, arg) →
    exec i s = .next (s.failedWith 7#8 arg)) ∧
  (∀ (a b c d dst : SlotIdx) (s : State), (∀ k ∈ [a, b, c, d, dst], k < s.params.nslot) →
    exec (.solveAff a b c d dst dst) s = .next (s.failedWith 7#8 6#4))

/-- With good slot fields, a modulus of 0 or of 2^31 and more is `BAD_MODULUS`, arg 0, for every command, whatever the shapes
(40_command_model.md R129; 60_exceptions.md R203). -/
def Obligations.BadModulusIsReported : Prop :=
  ∀ (i : Instr) (s : State), s.SlotsPass i → uint32 s.mod = 0 ∨ 2 ^ 31 ≤ uint32 s.mod →
    exec i s = .next (s.failedWith 5#8 0#4)

/-- With good slot fields and a legal modulus, the first source whose shape has 0 or more than `NMAX` rows or columns is reported
as `BAD_SHAPE` with its arg (40_command_model.md R124; 60_exceptions.md R203). -/
def Obligations.BadShapeNamesTheFirstSource : Prop :=
  ∀ (i : Instr) (s : State) (k : SlotIdx) (arg : BitVec 4), s.SlotsPass i → s.ModulusLegal →
    (sourceArgs i).find? (fun p => !decide (s.ShapeLegal p.1)) = some (k, arg) →
    exec i s = .next (s.failedWith 6#8 arg)

/-- With good slot fields, modulus and shapes, a source entry inside its shape that was not written since power-on makes the
completion record the model fault and write no result (40_command_model.md R128, R125). -/
def Obligations.UnwrittenOperandMarksTheRun : Prop :=
  ∀ (i : Instr) (s : State), s.SlotsPass i → s.ModulusLegal → (∀ p ∈ sourceArgs i, s.ShapeLegal p.1) →
    (∃ p ∈ sourceArgs i, ∃ x < (shapeAt s p.1).rows.toNat, ∃ y < (shapeAt s p.1).cols.toNat, entryAt s p.1 x y = none) →
    exec i s =
      .next { s with fault := some .uninitOperand, busy := false, done := true, pending := none }

/-- A source `A` that is not square is `NOT_SQUARE`, arg 1, for every matrix command, whatever the other operands hold
(60_exceptions.md R201, R203). -/
def Obligations.NotSquareIsReported : Prop :=
  ∀ (s : State) (a r c : Nat) (A : Matrix (Fin r) (Fin c) ℤ), s.ModulusLegal → s.SlotHolds a r c A → r ≠ c →
    exec (.det a) s = .next (s.failedWith 1#8 1#4) ∧
    ∀ dst < s.params.nslot,
      exec (.adj a dst) s = .next (s.failedWith 1#8 1#4) ∧
      exec (.inv a dst) s = .next (s.failedWith 1#8 1#4) ∧
      ∀ (b rB cB : Nat) (B : Matrix (Fin rB) (Fin cB) ℤ), s.SlotHolds b rB cB B →
        exec (.solveLin a b dst) s = .next (s.failedWith 1#8 1#4) ∧
        ∀ (dst2 y rC cC z rD cD : Nat) (C : Matrix (Fin rC) (Fin cC) ℤ) (D : Matrix (Fin rD) (Fin cD) ℤ),
          dst2 < s.params.nslot → dst ≠ dst2 → s.SlotHolds y rC cC C → s.SlotHolds z rD cD D →
          exec (.solveAff a b y z dst dst2) s = .next (s.failedWith 1#8 1#4)

/-- A solver block that is not `n × n`, with `n = ROWS(A)`, is `DIM_MISMATCH` with the arg of the first such block, before any
singularity check (43_solver.md R181, R186; 60_exceptions.md R203). -/
def Obligations.DimMismatchIsReported : Prop :=
  ∀ (s : State) (a b dst n rB cB : Nat) (A : Matrix (Fin n) (Fin n) ℤ) (B : Matrix (Fin rB) (Fin cB) ℤ),
    s.ModulusLegal → s.SlotHolds a n n A → s.SlotHolds b rB cB B → dst < s.params.nslot →
    (¬ (rB = n ∧ cB = n) → exec (.solveLin a b dst) s = .next (s.failedWith 4#8 2#4)) ∧
    ∀ (dst2 y z rC cC rD cD : Nat) (C : Matrix (Fin rC) (Fin cC) ℤ) (D : Matrix (Fin rD) (Fin cD) ℤ),
      dst2 < s.params.nslot → dst ≠ dst2 → s.SlotHolds y rC cC C → s.SlotHolds z rD cD D →
      (¬ (rB = n ∧ cB = n) → exec (.solveAff a b y z dst dst2) s = .next (s.failedWith 4#8 2#4)) ∧
      ((rB = n ∧ cB = n) → ¬ (rC = n ∧ cC = n) →
        exec (.solveAff a b y z dst dst2) s = .next (s.failedWith 4#8 3#4)) ∧
      ((rB = n ∧ cB = n) → (rC = n ∧ cC = n) → ¬ (rD = n ∧ cD = n) →
        exec (.solveAff a b y z dst dst2) s = .next (s.failedWith 4#8 4#4))

/-! ### Scalar commands -/

/-- Every word with opcode 0x01 is SINV, and SINV in every state (41_scalar.md R150, 40_command_model.md R134): `SCALAR_R` gets the one `x` in [0, m) with
`a·x ≡ 1 (mod m)` when `gcd(a, m) = 1`; otherwise `NO_INVERSE`, arg 0; an illegal modulus is `BAD_MODULUS`. -/
def Obligations.SinvGivesTheInverse : Prop :=
  (∀ w : Word, opField w = 0x01#8 → decodeWord w = .ok .sinv) ∧
  ∀ s : State,
    (s.ModulusLegal → Int.gcd (sint32 s.scalarA) (uint32 s.mod) = 1 →
      ∃ x : Int, (0 ≤ x ∧ x < uint32 s.mod ∧ sint32 s.scalarA * x % uint32 s.mod = 1 % uint32 s.mod) ∧
        (∀ y : Int, 0 ≤ y → y < uint32 s.mod → sint32 s.scalarA * y % uint32 s.mod = 1 % uint32 s.mod → y = x) ∧
        exec .sinv s = .next { s with scalarR := word32 x, busy := false, done := true, pending := none }) ∧
    (s.ModulusLegal → Int.gcd (sint32 s.scalarA) (uint32 s.mod) ≠ 1 → exec .sinv s = .next (s.failedWith 3#8 0#4)) ∧
    (¬ s.ModulusLegal → exec .sinv s = .next (s.failedWith 5#8 0#4))

/-- Every word with opcode 0x02 is SGCD, and SGCD in every state (41_scalar.md R152): `SCALAR_R` gets the gcd of the unreduced operand and the modulus, a value in
[1, m]; the only error is `BAD_MODULUS`. -/
def Obligations.SgcdGivesTheGcd : Prop :=
  (∀ w : Word, opField w = 0x02#8 → decodeWord w = .ok .sgcd) ∧
  ∀ s : State,
    (s.ModulusLegal →
      1 ≤ Int.gcd (sint32 s.scalarA) (uint32 s.mod) ∧ Int.gcd (sint32 s.scalarA) (uint32 s.mod) ≤ uint32 s.mod ∧
      exec .sgcd s = .next { s with
        scalarR := word32 (Int.gcd (sint32 s.scalarA) (uint32 s.mod)), busy := false, done := true, pending := none }) ∧
    (¬ s.ModulusLegal → exec .sgcd s = .next (s.failedWith 5#8 0#4))

/-! ### Matrix commands -/

/-- DET on a square source: `DET_R` gets the determinant of the matrix of signed entries, mod m, and nothing else but `STATUS`
and the latch changes (42_matrix.md R160, 40_command_model.md R131). -/
def Obligations.DetGivesTheDeterminant : Prop :=
  ∀ (s : State) (a n : Nat) (A : Matrix (Fin n) (Fin n) ℤ), s.ModulusLegal → s.SlotHolds a n n A →
    exec (.det a) s = .next { s with
      detR := word32 (A.det % uint32 s.mod), busy := false, done := true, pending := none }

/-- ADJ on a square source, `DST` any existing slot, the source included: `DST` gets the adjugate of the matrix of signed
entries, mod m (42_matrix.md R163, 40_command_model.md R132, R138). -/
def Obligations.AdjGivesTheAdjugate : Prop :=
  ∀ (s : State) (a dst n : Nat) (A : Matrix (Fin n) (Fin n) ℤ), s.Inv → s.ModulusLegal → s.SlotHolds a n n A →
    dst < s.params.nslot →
    ∃ t, exec (.adj a dst) s = .next t ∧ s.CompletedOk t ∧ t.fault = s.fault ∧
      t.SlotWritten dst n n (Matrix.of fun i j => A.adjugate i j % uint32 s.mod)

/-- INV on a square source whose determinant is coprime to the modulus: `DST` gets entries in [0, m), and the matrix there is
the two-sided inverse mod m (42_matrix.md R166, 40_command_model.md R139). -/
def Obligations.InvGivesTheInverse : Prop :=
  ∀ (s : State) (a dst n : Nat) (A : Matrix (Fin n) (Fin n) ℤ), s.Inv → s.ModulusLegal → s.SlotHolds a n n A →
    dst < s.params.nslot → Int.gcd A.det (uint32 s.mod) = 1 →
    ∃ (t : State) (B : Matrix (Fin n) (Fin n) ℤ), exec (.inv a dst) s = .next t ∧ s.CompletedOk t ∧ t.fault = s.fault ∧
      t.SlotWritten dst n n B ∧ InRange (uint32 s.mod) B ∧
      (∀ i j, (A * B) i j % uint32 s.mod = (1 : Matrix (Fin n) (Fin n) ℤ) i j % uint32 s.mod) ∧
      (∀ i j, (B * A) i j % uint32 s.mod = (1 : Matrix (Fin n) (Fin n) ℤ) i j % uint32 s.mod)

/-- The properties every model must satisfy (40_command_model.md R139), on what the commands store: the product of a square `A`
with ADJ's result, from either side, is `det(A)·I` mod m, and with INV's result it is `I` mod m when `gcd(det(A), m) = 1`. -/
def Obligations.AdjugateAndInverseProperties : Prop :=
  ∀ (s : State) (a dst n : Nat) (A : Matrix (Fin n) (Fin n) ℤ), s.Inv → s.ModulusLegal → s.SlotHolds a n n A →
    dst < s.params.nslot →
    (∃ (t : State) (B : Matrix (Fin n) (Fin n) ℤ), exec (.adj a dst) s = .next t ∧ t.SlotWritten dst n n B ∧
      (∀ i j, (A * B) i j % uint32 s.mod = (A.det • (1 : Matrix (Fin n) (Fin n) ℤ)) i j % uint32 s.mod) ∧
      (∀ i j, (B * A) i j % uint32 s.mod = (A.det • (1 : Matrix (Fin n) (Fin n) ℤ)) i j % uint32 s.mod)) ∧
    (Int.gcd A.det (uint32 s.mod) = 1 →
      ∃ (t : State) (B : Matrix (Fin n) (Fin n) ℤ), exec (.inv a dst) s = .next t ∧ t.SlotWritten dst n n B ∧
        ∀ i j, (A * B) i j % uint32 s.mod = (1 : Matrix (Fin n) (Fin n) ℤ) i j % uint32 s.mod)

/-- A coefficient matrix whose determinant is not coprime to the modulus is `SINGULAR`, arg 1, for INV, SOLVE_LIN and SOLVE_AFF
(there the matrix is `A - B`), and nothing is written (42_matrix.md R167; 43_solver.md R180, R184). -/
def Obligations.SingularCoefficientIsReported : Prop :=
  ∀ (s : State) (a b dst n : Nat) (A B : Matrix (Fin n) (Fin n) ℤ), s.ModulusLegal →
    s.SlotHolds a n n A → dst < s.params.nslot →
    (Int.gcd A.det (uint32 s.mod) ≠ 1 → exec (.inv a dst) s = .next (s.failedWith 2#8 1#4)) ∧
    (s.SlotHolds b n n B →
      (Int.gcd A.det (uint32 s.mod) ≠ 1 → exec (.solveLin a b dst) s = .next (s.failedWith 2#8 1#4)) ∧
      ∀ (dst2 y z : Nat) (C D : Matrix (Fin n) (Fin n) ℤ), dst2 < s.params.nslot → dst ≠ dst2 →
        s.SlotHolds y n n C → s.SlotHolds z n n D → Int.gcd (A - B).det (uint32 s.mod) ≠ 1 →
        exec (.solveAff a b y z dst dst2) s = .next (s.failedWith 2#8 1#4))

/-! ### Solver commands -/

/-- SOLVE_LIN when `X` and `Y` are `n × n` with determinants coprime to the modulus: `DST` gets a `K` with entries in [0, m) and
`X·K ≡ Y (mod m)`, itself invertible (43_solver.md R180). -/
def Obligations.SolveLinSolvesTheSystem : Prop :=
  ∀ (s : State) (a b dst n : Nat) (X Y : Matrix (Fin n) (Fin n) ℤ), s.Inv → s.ModulusLegal →
    s.SlotHolds a n n X → s.SlotHolds b n n Y → dst < s.params.nslot →
    Int.gcd X.det (uint32 s.mod) = 1 → Int.gcd Y.det (uint32 s.mod) = 1 →
    ∃ (t : State) (K : Matrix (Fin n) (Fin n) ℤ), exec (.solveLin a b dst) s = .next t ∧ s.CompletedOk t ∧
      t.fault = s.fault ∧ t.SlotWritten dst n n K ∧ InRange (uint32 s.mod) K ∧
      (∀ i j, (X * K) i j % uint32 s.mod = Y i j % uint32 s.mod) ∧ Int.gcd K.det (uint32 s.mod) = 1

/-- Once `X` passes its check, SOLVE_LIN's result check fails exactly when `gcd(det_m(Y), m) ≠ 1`: `SINGULAR`, arg 5, nothing
written (43_solver.md R182). -/
def Obligations.SolveLinResultCheckIsOnY : Prop :=
  ∀ (s : State) (a b dst n : Nat) (X Y : Matrix (Fin n) (Fin n) ℤ), s.err = false → s.ModulusLegal →
    s.SlotHolds a n n X → s.SlotHolds b n n Y → dst < s.params.nslot → Int.gcd X.det (uint32 s.mod) = 1 →
    (Int.gcd Y.det (uint32 s.mod) ≠ 1 ↔ exec (.solveLin a b dst) s = .next (s.failedWith 2#8 5#4))

/-- SOLVE_AFF when all blocks are `n × n` and `X1 - X2` and `Y1 - Y2` have determinants coprime to the modulus: `DST` gets an `L`
with `(X1 - X2)·L ≡ Y1 - Y2 (mod m)`, and `DST2` gets row 0 of `Y1 - X1·L`, a `1 × n` matrix; all in [0, m)
(43_solver.md R184, R185). -/
def Obligations.SolveAffSolvesTheSystem : Prop :=
  ∀ (s : State) (a b c d dst dst2 n : Nat) (X1 X2 Y1 Y2 : Matrix (Fin n) (Fin n) ℤ), s.Inv → s.ModulusLegal →
    s.SlotHolds a n n X1 → s.SlotHolds b n n X2 → s.SlotHolds c n n Y1 → s.SlotHolds d n n Y2 →
    dst < s.params.nslot → dst2 < s.params.nslot → dst ≠ dst2 →
    Int.gcd (X1 - X2).det (uint32 s.mod) = 1 → Int.gcd (Y1 - Y2).det (uint32 s.mod) = 1 →
    ∃ (t : State) (L : Matrix (Fin n) (Fin n) ℤ) (v : Matrix (Fin 1) (Fin n) ℤ),
      exec (.solveAff a b c d dst dst2) s = .next t ∧ s.CompletedOk t ∧ t.fault = s.fault ∧
      t.SlotWritten dst n n L ∧ t.SlotWritten dst2 1 n v ∧ InRange (uint32 s.mod) L ∧ InRange (uint32 s.mod) v ∧
      (∀ i j, ((X1 - X2) * L) i j % uint32 s.mod = (Y1 - Y2) i j % uint32 s.mod) ∧
      (∀ (i j : Fin n), i.val = 0 → v 0 j = (Y1 - X1 * L) i j % uint32 s.mod)

/-- When `X1 - X2` is invertible but `Y1 - Y2` is not, SOLVE_AFF's result matrix `L` is singular: `SINGULAR`, arg 5, nothing
written (43_solver.md R184). -/
def Obligations.SolveAffSingularResultIsReported : Prop :=
  ∀ (s : State) (a b c d dst dst2 n : Nat) (X1 X2 Y1 Y2 : Matrix (Fin n) (Fin n) ℤ), s.ModulusLegal →
    s.SlotHolds a n n X1 → s.SlotHolds b n n X2 → s.SlotHolds c n n Y1 → s.SlotHolds d n n Y2 →
    dst < s.params.nslot → dst2 < s.params.nslot → dst ≠ dst2 →
    Int.gcd (X1 - X2).det (uint32 s.mod) = 1 → Int.gcd (Y1 - Y2).det (uint32 s.mod) ≠ 1 →
    exec (.solveAff a b c d dst dst2) s = .next (s.failedWith 2#8 5#4)

/-- With `m = 1` every element is invertible and every result is 0, SGCD's 1 (40_command_model.md R141). -/
def Obligations.ModulusOneGivesZero : Prop :=
  ∀ s : State, s.Inv → s.mod = 1#32 →
    exec .sinv s = .next { s with scalarR := 0#32, busy := false, done := true, pending := none } ∧
    exec .sgcd s = .next { s with scalarR := 1#32, busy := false, done := true, pending := none } ∧
    (∀ (a n : Nat) (A : Matrix (Fin n) (Fin n) ℤ), s.SlotHolds a n n A →
      exec (.det a) s = .next { s with detR := 0#32, busy := false, done := true, pending := none } ∧
      ∀ dst < s.params.nslot,
        (∃ t, exec (.adj a dst) s = .next t ∧ s.CompletedOk t ∧ t.SlotWritten dst n n 0) ∧
        (∃ t, exec (.inv a dst) s = .next t ∧ s.CompletedOk t ∧ t.SlotWritten dst n n 0) ∧
        ∀ (b : Nat) (B : Matrix (Fin n) (Fin n) ℤ), s.SlotHolds b n n B →
          (∃ t, exec (.solveLin a b dst) s = .next t ∧ s.CompletedOk t ∧ t.SlotWritten dst n n 0) ∧
          ∀ (c d dst2 : Nat) (C D : Matrix (Fin n) (Fin n) ℤ), s.SlotHolds c n n C → s.SlotHolds d n n D →
            dst2 < s.params.nslot → dst ≠ dst2 →
            ∃ t, exec (.solveAff a b c d dst dst2) s = .next t ∧ s.CompletedOk t ∧
              t.SlotWritten dst n n 0 ∧ t.SlotWritten dst2 1 n 0) ∧
    (∀ (i : Instr) (t : State), exec i s = .next t → s.err = false → t.err = true →
      t.errCode ≠ 2#8 ∧ t.errCode ≠ 3#8)
end

