-- ==== Sys2Proof/Laws/Memory.lean ====
section
/-! SUPPORT. Reading after writing, in bytes, words and lists of words, and that every memory operation keeps the canonical
form. -/

namespace Sys2Proof.Machine

/-! ### Bytes -/

theorem Memory.read_write_same (μ : Memory) (a : Nat) (v : Byte) : (μ.write a v).read a = some v := by
  induction μ with
  | nil => simp [Memory.write, Memory.read]
  | cons c rest ih =>
    obtain ⟨k, u⟩ := c
    by_cases h1 : a < k
    · simp [Memory.write, h1, Memory.read]
    · by_cases h2 : a = k
      · simp [Memory.write, h2, Memory.read]
      · simp [Memory.write, h1, h2, Memory.read, Ne.symm h2, ih]

theorem Memory.read_write_other (μ : Memory) (a b : Nat) (v : Byte) (h : b ≠ a) :
    (μ.write a v).read b = μ.read b := by
  induction μ with
  | nil => simp [Memory.write, Memory.read, h.symm]
  | cons c rest ih =>
    obtain ⟨k, u⟩ := c
    by_cases h1 : a < k
    · simp [Memory.write, h1, Memory.read, h.symm]
    · by_cases h2 : a = k
      · subst h2
        simp [Memory.write, Memory.read, h.symm]
      · simp [Memory.write, h1, h2, Memory.read, ih]

theorem Memory.read_write (μ : Memory) (a b : Nat) (v : Byte) :
    (μ.write a v).read b = if b = a then some v else μ.read b := by
  split
  · next h => rw [h, read_write_same]
  · next h => exact read_write_other μ a b v h

theorem Memory.read_eq_none_of_not_mem (μ : Memory) (a : Nat) (h : ∀ c ∈ μ, c.1 ≠ a) : μ.read a = none := by
  induction μ with
  | nil => rfl
  | cons c rest ih =>
    obtain ⟨k, u⟩ := c
    have hk : k ≠ a := h (k, u) (by simp)
    simpa [Memory.read, hk] using ih fun c hc => h c (by simp [hc])

/-- The cells after a write: the one written, and cells that were there. -/
theorem Memory.mem_write {μ : Memory} {a : Nat} {v : Byte} {c : Host.Cell} (h : c ∈ μ.write a v) :
    c = (a, v) ∨ c ∈ μ := by
  induction μ with
  | nil => simpa [Memory.write] using h
  | cons d rest ih =>
    obtain ⟨k, u⟩ := d
    simp only [Memory.write] at h
    split at h
    · simpa using h
    · split at h
      · simp only [List.mem_cons] at h ⊢
        tauto
      · simp only [List.mem_cons] at h ⊢
        rcases h with h | h
        · tauto
        · rcases ih h with h | h <;> tauto

theorem Memory.write_wf {μ : Memory} (h : μ.wf) (a : Nat) (v : Byte) : (μ.write a v).wf := by
  induction μ with
  | nil => simp [Memory.write, Memory.wf]
  | cons c rest ih =>
    obtain ⟨k, u⟩ := c
    have hc := List.pairwise_cons.mp h
    simp only [Memory.write]
    split
    · next hlt =>
      refine List.pairwise_cons.mpr ⟨fun x hx => ?_, h⟩
      rcases List.mem_cons.mp hx with rfl | hx
      · exact hlt
      · exact lt_trans hlt (hc.1 x hx)
    · split
      · next heq =>
        subst heq
        exact List.pairwise_cons.mpr ⟨hc.1, hc.2⟩
      · next hge hne =>
        refine List.pairwise_cons.mpr ⟨fun x hx => ?_, ih hc.2⟩
        rcases Memory.mem_write hx with rfl | hx
        · show k < a
          omega
        · exact hc.1 x hx

/-! ### Words -/

@[simp] theorem wordOfLanes_lanes (w : Word) : wordOfLanes (lane w 0) (lane w 1) (lane w 2) (lane w 3) = w := by
  apply BitVec.eq_of_getLsbD_eq
  intro i hi
  simp only [wordOfLanes, lane, BitVec.getLsbD_append, BitVec.getLsbD_extractLsb']
  split_ifs with h1 h2 h3
  · simp [h1]
  · simp only [show i - 8 < 8 by omega, decide_true, Bool.true_and]
    congr 1
    omega
  · simp only [show i - 8 - 8 < 8 by omega, decide_true, Bool.true_and]
    congr 1
    omega
  · simp only [show i - 8 - 8 - 8 < 8 by omega, decide_true, Bool.true_and]
    congr 1
    omega

theorem Memory.readWord_congr {μ ν : Memory} {a : Nat} (h : ∀ b, a ≤ b → b < a + 4 → μ.read b = ν.read b) :
    μ.readWord a = ν.readWord a := by
  simp only [Memory.readWord, h a (by omega) (by omega), h (a + 1) (by omega) (by omega),
    h (a + 2) (by omega) (by omega), h (a + 3) (by omega) (by omega)]

theorem Memory.read_writeWord_other (μ : Memory) (a b : Nat) (w : Word) (h : b < a ∨ a + 4 ≤ b) :
    (μ.writeWord a w).read b = μ.read b := by
  simp only [Memory.writeWord, Memory.read_write]
  split_ifs <;> first | rfl | omega

@[simp] theorem Memory.readWord_writeWord_same (μ : Memory) (a : Nat) (w : Word) :
    (μ.writeWord a w).readWord a = some w := by
  simp [Memory.readWord, Memory.writeWord, Memory.read_write]

theorem Memory.readWord_writeWord_other (μ : Memory) (a b : Nat) (w : Word) (h : b + 4 ≤ a ∨ a + 4 ≤ b) :
    (μ.writeWord a w).readWord b = μ.readWord b :=
  Memory.readWord_congr fun x _ _ => Memory.read_writeWord_other μ a x w (by omega)

theorem Memory.writeWord_wf {μ : Memory} (h : μ.wf) (a : Nat) (w : Word) : (μ.writeWord a w).wf :=
  Memory.write_wf (Memory.write_wf (Memory.write_wf (Memory.write_wf h _ _) _ _) _ _) _ _

theorem Memory.mem_writeWord {μ : Memory} {a : Nat} {w : Word} {c : Host.Cell} (h : c ∈ μ.writeWord a w) :
    (a ≤ c.1 ∧ c.1 < a + 4) ∨ c ∈ μ := by
  unfold Memory.writeWord at h
  rcases Memory.mem_write h with rfl | h
  · left; dsimp; omega
  rcases Memory.mem_write h with rfl | h
  · left; dsimp; omega
  rcases Memory.mem_write h with rfl | h
  · left; dsimp; omega
  rcases Memory.mem_write h with rfl | h
  · left; dsimp; omega
  · exact .inr h

/-- A word that was written stays written, whichever aligned word is written next. -/
theorem Memory.isSome_readWord_writeWord {μ : Memory} {a b : Nat} {w : Word} (ha : a % 4 = 0) (hb : b % 4 = 0)
    (h : b = a ∨ (μ.readWord b).isSome = true) : ((μ.writeWord a w).readWord b).isSome = true := by
  by_cases hab : b = a
  · subst hab; simp
  · rw [Memory.readWord_writeWord_other μ a b w (by omega)]
    exact h.resolve_left hab

/-! ### Lists of words -/

theorem Memory.writeWords_wf {cells : List (Nat × Word)} {μ : Memory} (h : μ.wf) : (μ.writeWords cells).wf := by
  induction cells generalizing μ with
  | nil => exact h
  | cons c rest ih => exact ih (Memory.writeWord_wf h c.1 c.2)

theorem Memory.read_writeWords_other {cells : List (Nat × Word)} {μ : Memory} {b : Nat}
    (h : ∀ c ∈ cells, b < c.1 ∨ c.1 + 4 ≤ b) : (μ.writeWords cells).read b = μ.read b := by
  induction cells generalizing μ with
  | nil => rfl
  | cons c rest ih =>
    obtain ⟨a, w⟩ := c
    simp only [Memory.writeWords]
    rw [ih fun c hc => h c (by simp [hc])]
    exact Memory.read_writeWord_other μ a b w (h (a, w) (by simp))

theorem Memory.readWord_writeWords_other {cells : List (Nat × Word)} {μ : Memory} {b : Nat}
    (h : ∀ c ∈ cells, b + 4 ≤ c.1 ∨ c.1 + 4 ≤ b) : (μ.writeWords cells).readWord b = μ.readWord b :=
  Memory.readWord_congr fun x _ _ => Memory.read_writeWords_other fun c hc => by
    have := h c hc
    omega

/-- Reading back one of several words written at addresses four apart: the last one written there wins, and here all
addresses differ. -/
theorem Memory.readWord_writeWords_same {cells : List (Nat × Word)} {μ : Memory} {a : Nat} {w : Word}
    (hmem : (a, w) ∈ cells) (hdiff : cells.Pairwise fun x y => x.1 + 4 ≤ y.1 ∨ y.1 + 4 ≤ x.1) :
    (μ.writeWords cells).readWord a = some w := by
  induction cells generalizing μ with
  | nil => simp at hmem
  | cons c rest ih =>
    have hp := List.pairwise_cons.mp hdiff
    rcases List.mem_cons.mp hmem with h | h
    · subst h
      simp only [Memory.writeWords]
      rw [Memory.readWord_writeWords_other fun d hd => hp.1 d hd]
      simp
    · exact ih h hp.2

theorem Memory.mem_writeWords {cells : List (Nat × Word)} {μ : Memory} {x : Host.Cell} (h : x ∈ μ.writeWords cells) :
    (∃ c ∈ cells, c.1 ≤ x.1 ∧ x.1 < c.1 + 4) ∨ x ∈ μ := by
  induction cells generalizing μ with
  | nil => exact .inr h
  | cons c rest ih =>
    rcases ih h with ⟨d, hd, hx⟩ | h
    · exact .inl ⟨d, by simp [hd], hx⟩
    · rcases Memory.mem_writeWord h with h | h
      · exact .inl ⟨c, by simp, h⟩
      · exact .inr h

theorem Memory.isSome_readWord_writeWords {cells : List (Nat × Word)} {μ : Memory} {b : Nat}
    (hc : ∀ c ∈ cells, c.1 % 4 = 0) (hb : b % 4 = 0)
    (h : (∃ c ∈ cells, c.1 = b) ∨ (μ.readWord b).isSome = true) :
    ((μ.writeWords cells).readWord b).isSome = true := by
  induction cells generalizing μ with
  | nil => simpa [Memory.writeWords] using h
  | cons c rest ih =>
    refine ih (fun d hd => hc d (by simp [hd])) ?_
    rcases h with ⟨d, hd, rfl⟩ | h
    · rcases List.mem_cons.mp hd with rfl | hd
      · exact .inr (by simp)
      · exact .inl ⟨d, hd, rfl⟩
    · exact .inr (Memory.isSome_readWord_writeWord (hc c (by simp)) hb (.inr h))

end Sys2Proof.Machine
end

