-- ==== Sys2Proof/Laws/Ring.lean ====
section
/-! SUPPORT. The model's matrix arithmetic is Mathlib's: `det` is `Matrix.det` and `adj` is `Matrix.adjugate` of the matrix a
list of rows stands for, reduction mod m commutes with both, and `invMod` is the inverse of 40_command_model.md R134. -/

namespace Sys2Proof.Machine

open Matrix

/-- The `r × c` matrix that a list of rows stands for. -/
def matrixOf (r c : Nat) (A : Mat) : Matrix (Fin r) (Fin c) ℤ := fun i j => entry A i j

@[simp] theorem matrixOf_apply (r c : Nat) (A : Mat) (i : Fin r) (j : Fin c) : matrixOf r c A i j = entry A i j := rfl

/-! ### Entries -/

theorem entry_matOf {r c i j : Nat} (f : Nat → Nat → Int) (hi : i < r) (hj : j < c) :
    entry (matOf r c f) i j = f i j := by
  simp [entry, matOf, hi, hj]

theorem matrixOf_matOf (r c : Nat) (f : Nat → Nat → Int) : matrixOf r c (matOf r c f) = Matrix.of fun (i : Fin r) (j : Fin c) => f i j := by
  funext i j
  exact entry_matOf f i.isLt j.isLt

theorem entry_minorOf (A : Mat) (i j a b : Nat) :
    entry (minorOf A i j) a b = entry A (if a < i then a else a + 1) (if b < j then b else b + 1) := by
  simp only [entry, minorOf, List.getD_eq_getElem?_getD, List.getElem?_map, List.getElem?_eraseIdx]
  by_cases ha : a < i
  · simp only [ha, if_true]
    cases A[a]? with
    | none => simp
    | some row =>
      simp only [Option.map_some, Option.getD_some, List.getElem?_eraseIdx]
      split_ifs <;> rfl
  · simp only [ha, if_false]
    cases A[a + 1]? with
    | none => simp
    | some row =>
      simp only [Option.map_some, Option.getD_some, List.getElem?_eraseIdx]
      split_ifs <;> rfl

theorem sign_eq_pow (k : Nat) : sign k = (-1) ^ k := by
  unfold sign
  split
  · next h => rw [Even.neg_one_pow (Nat.even_iff.mpr h)]
  · next h => rw [Odd.neg_one_pow (Nat.odd_iff.mpr (by omega))]

theorem sumTo_eq (n : Nat) (f : Nat → Int) : sumTo n f = ∑ k : Fin n, f k := by
  rw [← Finset.sum_range]
  rfl

theorem sumTo_congr {n : Nat} {f g : Nat → Int} (h : ∀ k < n, f k = g k) : sumTo n f = sumTo n g := by
  simp only [sumTo_eq]
  exact Finset.sum_congr rfl fun k _ => h k k.isLt

/-! ### Determinant and adjugate -/

/-- The cofactor expansion of 40_command_model.md R131 with every term written out: a zero coefficient makes its term 0. -/
theorem det_succ (n : Nat) (A : Mat) :
    det (n + 1) A = sumTo (n + 1) fun j => sign j * entry A 0 j * det n (minorOf A 0 j) := by
  cases n with
  | zero => simp [det, sumTo, sign]
  | succ n =>
    refine sumTo_congr fun j _ => ?_
    split
    · next h => simp [h]
    · rfl

theorem matrixOf_minorOf {n : Nat} (A : Mat) (i j : Fin (n + 1)) :
    matrixOf n n (minorOf A i j) = (matrixOf (n + 1) (n + 1) A).submatrix i.succAbove j.succAbove := by
  funext a b
  simp only [matrixOf_apply, entry_minorOf, submatrix_apply, Fin.succAbove, Fin.lt_def]
  congr 1 <;> split_ifs <;> simp_all <;> omega

/-- The model's determinant is Mathlib's. -/
theorem det_eq (n : Nat) (A : Mat) : det n A = (matrixOf n n A).det := by
  induction n generalizing A with
  | zero => simp [det]
  | succ n ih =>
    rw [det_succ, sumTo_eq, det_succ_row_zero]
    refine Finset.sum_congr rfl fun j _ => ?_
    have h := matrixOf_minorOf A 0 j
    simp only [Fin.val_zero, Fin.succAbove_zero] at h
    rw [ih, sign_eq_pow, h]
    rfl

/-- The model's adjugate is Mathlib's. -/
theorem matrixOf_adj (n : Nat) (A : Mat) : matrixOf n n (adj n A) = (matrixOf n n A).adjugate := by
  match n with
  | 0 => exact Subsingleton.elim _ _
  | 1 =>
    funext i j
    have hi : i = 0 := Subsingleton.elim _ _
    have hj : j = 0 := Subsingleton.elim _ _
    subst hi hj
    simp [adj, entry, adjugate_fin_one]
  | n + 2 =>
    funext i j
    have hadj : adj (n + 2) A = matOf (n + 2) (n + 2) fun i j => sign (i + j) * det (n + 1) (minorOf A j i) := rfl
    rw [hadj, matrixOf_matOf, of_apply, sign_eq_pow, det_eq, matrixOf_minorOf A j i,
      adjugate_fin_succ_eq_det_submatrix, add_comm (i : Nat) j]

/-! ### Reduction mod m -/

/-- Two integer matrices are equal entry by entry mod m. -/
def EqMod (m : Nat) {r c : Nat} (A B : Matrix (Fin r) (Fin c) ℤ) : Prop := ∀ i j, A i j % m = B i j % m

theorem cast_eq_iff (m : Nat) (a b : ℤ) : ((a : ZMod m) = (b : ZMod m)) ↔ a % m = b % m :=
  ZMod.intCast_eq_intCast_iff a b m

theorem EqMod.map_eq {m r c : Nat} {A B : Matrix (Fin r) (Fin c) ℤ} (h : EqMod m A B) :
    A.map (Int.castRingHom (ZMod m)) = B.map (Int.castRingHom (ZMod m)) := by
  funext i j
  simpa using (cast_eq_iff m _ _).mpr (h i j)

theorem EqMod.det {m n : Nat} {A B : Matrix (Fin n) (Fin n) ℤ} (h : EqMod m A B) : A.det % m = B.det % m := by
  have := congrArg Matrix.det h.map_eq
  rw [← RingHom.mapMatrix_apply, ← RingHom.mapMatrix_apply, ← RingHom.map_det, ← RingHom.map_det] at this
  exact (cast_eq_iff m _ _).mp (by simpa using this)

theorem EqMod.adjugate {m n : Nat} {A B : Matrix (Fin n) (Fin n) ℤ} (h : EqMod m A B) :
    EqMod m A.adjugate B.adjugate := by
  have := congrArg Matrix.adjugate h.map_eq
  rw [← RingHom.mapMatrix_apply, ← RingHom.mapMatrix_apply, ← RingHom.map_adjugate, ← RingHom.map_adjugate] at this
  intro i j
  exact (cast_eq_iff m _ _).mp (by simpa using congrFun (congrFun this i) j)

theorem EqMod.mul {m n : Nat} {A B C D : Matrix (Fin n) (Fin n) ℤ} (h : EqMod m A B) (h' : EqMod m C D) :
    EqMod m (A * C) (B * D) := by
  have : (A * C).map (Int.castRingHom (ZMod m)) = (B * D).map (Int.castRingHom (ZMod m)) := by
    rw [Matrix.map_mul, Matrix.map_mul, h.map_eq, h'.map_eq]
  intro i j
  exact (cast_eq_iff m _ _).mp (by simpa using congrFun (congrFun this i) j)

theorem gcdMod_emod (m : Nat) (x : Int) : gcdMod m (x % m) = gcdMod m x := by
  exact Int.gcd_emod x m

/-! ### The inverse mod m -/

/-- The loop's invariant: its coefficients express the remainders as multiples of `x` mod m. -/
theorem euclid_spec (m : Nat) (x : Int) (fuel r0 r1 : Nat) (t0 t1 : Int) (hf : r1 < fuel)
    (h0 : (m : Int) ∣ t0 * x - r0) (h1 : (m : Int) ∣ t1 * x - r1) :
    (m : Int) ∣ euclid fuel r0 r1 t0 t1 * x - Nat.gcd r0 r1 := by
  induction fuel generalizing r0 r1 t0 t1 with
  | zero => omega
  | succ fuel ih =>
    unfold euclid
    split
    · next h => simpa [h] using h0
    · next h =>
      have hlt : r0 % r1 < r1 := Nat.mod_lt _ (Nat.pos_of_ne_zero h)
      have hgcd : Nat.gcd r0 r1 = Nat.gcd r1 (r0 % r1) := by
        rw [Nat.gcd_comm r0 r1, Nat.gcd_rec, Nat.gcd_comm]
      rw [hgcd]
      refine ih r1 (r0 % r1) t1 _ (by omega) h1 ?_
      have hdiv : (r0 : Int) = r1 * (r0 / r1 : Nat) + (r0 % r1 : Nat) := by exact_mod_cast (Nat.div_add_mod r0 r1).symm
      have : (t0 - (r0 / r1 : Nat) * t1) * x - (r0 % r1 : Nat) =
          (t0 * x - r0) - (r0 / r1 : Nat) * (t1 * x - r1) := by
        rw [show ((r0 % r1 : Nat) : Int) = r0 - r1 * (r0 / r1 : Nat) by omega]
        ring
      rw [this]
      exact dvd_sub h0 (Dvd.dvd.mul_left h1 _)

/-- `inv_m(x)` of 40_command_model.md R134. -/
theorem invMod_spec {m : Nat} {x : Int} (hm : 1 ≤ m) (h0 : 0 ≤ x) (hx : x < m) (hg : gcdMod m x = 1) :
    0 ≤ invMod m x ∧ invMod m x < m ∧ x * invMod m x % m = 1 % m := by
  have hmz : (m : Int) ≠ 0 := by omega
  refine ⟨Int.emod_nonneg _ hmz, Int.emod_lt_of_pos _ (by omega), ?_⟩
  have h := euclid_spec m x (m + 1) m x.toNat 0 1 (by omega) (by simp) (by simp [Int.toNat_of_nonneg h0])
  have hgcd : Nat.gcd m x.toNat = 1 := by
    rw [← hg, gcdMod, Int.gcd, Nat.gcd_comm]
    congr 1
    omega
  rw [hgcd] at h
  have : x * invMod m x % m = x * euclid (m + 1) m x.toNat 0 1 % m := by
    rw [invMod, Int.mul_emod, Int.emod_emod_of_dvd _ dvd_rfl, ← Int.mul_emod]
  rw [this, mul_comm]
  exact (Int.modEq_iff_dvd.mpr (by simpa using h) : (1 : Int) ≡ _ [ZMOD m]).symm

/-- The inverse mod m is unique (40_command_model.md R134). -/
theorem inverse_unique {m : Nat} {x y z : Int} (hy : 0 ≤ y ∧ y < m) (hz : 0 ≤ z ∧ z < m)
    (hxy : x * y % m = 1 % m) (hxz : x * z % m = 1 % m) : y = z := by
  have key : (y : ZMod m) = (z : ZMod m) := by
    have h1 : (x : ZMod m) * y = 1 := by exact_mod_cast (cast_eq_iff m (x * y) 1).mpr (by simpa using hxy)
    have h2 : (x : ZMod m) * z = 1 := by exact_mod_cast (cast_eq_iff m (x * z) 1).mpr (by simpa using hxz)
    calc (y : ZMod m) = y * (x * z) := by rw [h2, mul_one]
      _ = (x * y) * z := by ring
      _ = z := by rw [h1, one_mul]
  have := (cast_eq_iff m y z).mp key
  rwa [Int.emod_eq_of_lt hy.1 hy.2, Int.emod_eq_of_lt hz.1 hz.2] at this

/-! ### Matrix operations mod m -/

theorem matrixOf_adjMod (m n : Nat) (A : Mat) :
    matrixOf n n (adjMod m n A) = Matrix.of fun (i j : Fin n) => (matrixOf n n A).adjugate i j % m := by
  rw [adjMod, matrixOf_matOf, ← matrixOf_adj]
  rfl

theorem matrixOf_mulMod (m n : Nat) (X Y : Mat) :
    matrixOf n n (mulMod m n X Y) = Matrix.of fun (i j : Fin n) => (matrixOf n n X * matrixOf n n Y) i j % m := by
  rw [mulMod, matrixOf_matOf]
  funext i j
  simp only [of_apply, sumTo_eq, mul_apply, matrixOf_apply]

theorem matrixOf_subMod (m n : Nat) (X Y : Mat) :
    matrixOf n n (subMod m n X Y) = Matrix.of fun (i j : Fin n) => (matrixOf n n X - matrixOf n n Y) i j % m := by
  rw [subMod, matrixOf_matOf]
  rfl

theorem matrixOf_scaleMod (m n : Nat) (k : Int) (X : Mat) :
    matrixOf n n (scaleMod m n k X) = Matrix.of fun (i j : Fin n) => k * matrixOf n n X i j % m := by
  rw [scaleMod, matrixOf_matOf]
  rfl

theorem detMod_eq (m n : Nat) (A : Mat) : detMod m n A = (matrixOf n n A).det % m := by
  rw [detMod, det_eq]

/-- What INV and the solvers compute is the inverse mod m when the determinant is a unit (40_command_model.md R139). -/
theorem mul_inverseMod {m n : Nat} (hm : 1 ≤ m) (X : Mat) (hg : gcdMod m (detMod m n X) = 1) :
    EqMod m (matrixOf n n X * matrixOf n n (inverseMod m n X)) 1 ∧
    EqMod m (matrixOf n n (inverseMod m n X) * matrixOf n n X) 1 := by
  have hmz : (m : Int) ≠ 0 := by omega
  have hinv := (invMod_spec hm (Int.emod_nonneg (det n X) hmz) (Int.emod_lt_of_pos (det n X) (by omega)) hg).2.2
  have hunit : (((matrixOf n n X).det * invMod m (detMod m n X) : ℤ) : ZMod m) = 1 := by
    have := (cast_eq_iff m (det n X % m * invMod m (det n X % m)) 1).mpr hinv
    rw [det_eq] at this
    simpa [detMod, det_eq] using this
  have hcast : (matrixOf n n (inverseMod m n X)).map (Int.castRingHom (ZMod m)) =
      (invMod m (detMod m n X) : ZMod m) • ((matrixOf n n X).map (Int.castRingHom (ZMod m))).adjugate := by
    rw [← RingHom.mapMatrix_apply (Int.castRingHom (ZMod m)) (matrixOf n n X), ← RingHom.map_adjugate]
    funext i j
    rw [inverseMod, matrixOf_scaleMod, matrixOf_adjMod]
    simp
  have hdet : (invMod m (detMod m n X) : ZMod m) * ((matrixOf n n X).map (Int.castRingHom (ZMod m))).det = 1 := by
    rw [← RingHom.mapMatrix_apply, ← RingHom.map_det]
    simpa [mul_comm] using hunit
  constructor
  · have : ((matrixOf n n X * matrixOf n n (inverseMod m n X)).map (Int.castRingHom (ZMod m))) =
        (1 : Matrix (Fin n) (Fin n) ℤ).map (Int.castRingHom (ZMod m)) := by
      rw [Matrix.map_mul, hcast, Matrix.mul_smul, Matrix.mul_adjugate, smul_smul, hdet]
      simp
    intro i j
    exact (cast_eq_iff m _ _).mp (by simpa using congrFun (congrFun this i) j)
  · have : ((matrixOf n n (inverseMod m n X) * matrixOf n n X).map (Int.castRingHom (ZMod m))) =
        (1 : Matrix (Fin n) (Fin n) ℤ).map (Int.castRingHom (ZMod m)) := by
      rw [Matrix.map_mul, hcast, Matrix.smul_mul, Matrix.adjugate_mul, smul_smul, hdet]
      simp
    intro i j
    exact (cast_eq_iff m _ _).mp (by simpa using congrFun (congrFun this i) j)

/-! ### Solving a system mod m -/

theorem eqMod_emod {m r c : Nat} (A : Matrix (Fin r) (Fin c) ℤ) : EqMod m (Matrix.of fun i j => A i j % m) A :=
  fun i j => by simp

theorem EqMod.trans {m r c : Nat} {A B C : Matrix (Fin r) (Fin c) ℤ} (h : EqMod m A B) (h' : EqMod m B C) :
    EqMod m A C := fun i j => (h i j).trans (h' i j)

theorem EqMod.symm {m r c : Nat} {A B : Matrix (Fin r) (Fin c) ℤ} (h : EqMod m A B) : EqMod m B A :=
  fun i j => (h i j).symm

theorem EqMod.refl (m : Nat) {r c : Nat} (A : Matrix (Fin r) (Fin c) ℤ) : EqMod m A A := fun _ _ => rfl

theorem EqMod.sub {m r c : Nat} {A B C D : Matrix (Fin r) (Fin c) ℤ} (h : EqMod m A B) (h' : EqMod m C D) :
    EqMod m (A - C) (B - D) := fun i j => by
  show (A i j - C i j) % m = (B i j - D i j) % m
  rw [Int.sub_emod, h i j, h' i j, ← Int.sub_emod]

theorem eqMod_mulMod (m n : Nat) (X Y : Mat) :
    EqMod m (matrixOf n n (mulMod m n X Y)) (matrixOf n n X * matrixOf n n Y) := by
  rw [matrixOf_mulMod]
  exact eqMod_emod _

theorem eqMod_subMod (m n : Nat) (X Y : Mat) :
    EqMod m (matrixOf n n (subMod m n X Y)) (matrixOf n n X - matrixOf n n Y) := by
  rw [matrixOf_subMod]
  exact eqMod_emod _

/-- `X · (X⁻¹ · Y) ≡ Y`: what the solvers compute solves the system (43_solver.md R180). -/
theorem mul_solve {m n : Nat} (hm : 1 ≤ m) (X Y : Mat) (hg : gcdMod m (detMod m n X) = 1) :
    EqMod m (matrixOf n n X * matrixOf n n (mulMod m n (inverseMod m n X) Y)) (matrixOf n n Y) := by
  have h1 : EqMod m (matrixOf n n X * matrixOf n n (mulMod m n (inverseMod m n X) Y))
      (matrixOf n n X * (matrixOf n n (inverseMod m n X) * matrixOf n n Y)) :=
    (EqMod.refl m _).mul (eqMod_mulMod m n _ _)
  rw [← Matrix.mul_assoc] at h1
  have h2 := (mul_inverseMod hm X hg).1.mul (EqMod.refl m (matrixOf n n Y))
  rw [Matrix.one_mul] at h2
  exact h1.trans h2

/-- A unit factor does not change the gcd with the modulus. -/
theorem gcd_mul_of_unit {m : Nat} {x y : Int} (h : Int.gcd x m = 1) : Int.gcd (x * y) m = Int.gcd y m := by
  simp only [Int.gcd, Int.natAbs_mul]
  exact Nat.Coprime.gcd_mul_left_cancel _ h

/-- The result check on `X⁻¹ · Y` is the check on `Y` (43_solver.md R182). -/
theorem gcd_det_solve {m n : Nat} (hm : 1 ≤ m) (X Y : Mat) (hg : gcdMod m (detMod m n X) = 1) :
    gcdMod m (detMod m n (mulMod m n (inverseMod m n X) Y)) = gcdMod m (detMod m n Y) := by
  have hdet := (mul_solve hm X Y hg).det
  rw [Matrix.det_mul] at hdet
  rw [detMod_eq, gcdMod_emod] at hg
  rw [detMod_eq, detMod_eq, gcdMod_emod, gcdMod_emod, ← gcdMod_emod m (matrixOf n n Y).det, ← hdet, gcdMod_emod]
  exact (gcd_mul_of_unit hg).symm

end Sys2Proof.Machine
end

