-- ==== Sys2Proof/Laws/State.lean ====
section
/-! SUPPORT. One lemma per field per update of the state, true by `rfl`, so that no proof unfolds a record update. -/

namespace Sys2Proof.Machine

/-! `setShape` -/

@[simp] theorem setShape_params (s : State) (k : SlotIdx) (sh : Shape) :
    (setShape s k sh).params = s.params := rfl
@[simp] theorem setShape_cmd (s : State) (k : SlotIdx) (sh : Shape) :
    (setShape s k sh).cmd = s.cmd := rfl
@[simp] theorem setShape_busy (s : State) (k : SlotIdx) (sh : Shape) :
    (setShape s k sh).busy = s.busy := rfl
@[simp] theorem setShape_done (s : State) (k : SlotIdx) (sh : Shape) :
    (setShape s k sh).done = s.done := rfl
@[simp] theorem setShape_err (s : State) (k : SlotIdx) (sh : Shape) :
    (setShape s k sh).err = s.err := rfl
@[simp] theorem setShape_busywr (s : State) (k : SlotIdx) (sh : Shape) :
    (setShape s k sh).busywr = s.busywr := rfl
@[simp] theorem setShape_errArg (s : State) (k : SlotIdx) (sh : Shape) :
    (setShape s k sh).errArg = s.errArg := rfl
@[simp] theorem setShape_errCode (s : State) (k : SlotIdx) (sh : Shape) :
    (setShape s k sh).errCode = s.errCode := rfl
@[simp] theorem setShape_lastOp (s : State) (k : SlotIdx) (sh : Shape) :
    (setShape s k sh).lastOp = s.lastOp := rfl
@[simp] theorem setShape_doneIe (s : State) (k : SlotIdx) (sh : Shape) :
    (setShape s k sh).doneIe = s.doneIe := rfl
@[simp] theorem setShape_errIe (s : State) (k : SlotIdx) (sh : Shape) :
    (setShape s k sh).errIe = s.errIe := rfl
@[simp] theorem setShape_mod (s : State) (k : SlotIdx) (sh : Shape) :
    (setShape s k sh).mod = s.mod := rfl
@[simp] theorem setShape_scalarA (s : State) (k : SlotIdx) (sh : Shape) :
    (setShape s k sh).scalarA = s.scalarA := rfl
@[simp] theorem setShape_scalarR (s : State) (k : SlotIdx) (sh : Shape) :
    (setShape s k sh).scalarR = s.scalarR := rfl
@[simp] theorem setShape_detR (s : State) (k : SlotIdx) (sh : Shape) :
    (setShape s k sh).detR = s.detR := rfl
@[simp] theorem setShape_shapes (s : State) (k : SlotIdx) (sh : Shape) :
    (setShape s k sh).shapes = s.shapes.set k sh := rfl
@[simp] theorem setShape_mem (s : State) (k : SlotIdx) (sh : Shape) :
    (setShape s k sh).mem = s.mem := rfl
@[simp] theorem setShape_pending (s : State) (k : SlotIdx) (sh : Shape) :
    (setShape s k sh).pending = s.pending := rfl
@[simp] theorem setShape_fault (s : State) (k : SlotIdx) (sh : Shape) :
    (setShape s k sh).fault = s.fault := rfl
@[simp] theorem setShape_draws (s : State) (k : SlotIdx) (sh : Shape) :
    (setShape s k sh).draws = s.draws := rfl
@[simp] theorem setShape_resp (s : State) (k : SlotIdx) (sh : Shape) :
    (setShape s k sh).resp = s.resp := rfl
@[simp] theorem setShape_sched (s : State) (k : SlotIdx) (sh : Shape) :
    (setShape s k sh).sched = s.sched := rfl

/-! `writeBlock` -/

@[simp] theorem writeBlock_params (s : State) (k : SlotIdx) (r c : Nat) (M : Mat) :
    (writeBlock s k r c M).params = s.params := rfl
@[simp] theorem writeBlock_cmd (s : State) (k : SlotIdx) (r c : Nat) (M : Mat) :
    (writeBlock s k r c M).cmd = s.cmd := rfl
@[simp] theorem writeBlock_busy (s : State) (k : SlotIdx) (r c : Nat) (M : Mat) :
    (writeBlock s k r c M).busy = s.busy := rfl
@[simp] theorem writeBlock_done (s : State) (k : SlotIdx) (r c : Nat) (M : Mat) :
    (writeBlock s k r c M).done = s.done := rfl
@[simp] theorem writeBlock_err (s : State) (k : SlotIdx) (r c : Nat) (M : Mat) :
    (writeBlock s k r c M).err = s.err := rfl
@[simp] theorem writeBlock_busywr (s : State) (k : SlotIdx) (r c : Nat) (M : Mat) :
    (writeBlock s k r c M).busywr = s.busywr := rfl
@[simp] theorem writeBlock_errArg (s : State) (k : SlotIdx) (r c : Nat) (M : Mat) :
    (writeBlock s k r c M).errArg = s.errArg := rfl
@[simp] theorem writeBlock_errCode (s : State) (k : SlotIdx) (r c : Nat) (M : Mat) :
    (writeBlock s k r c M).errCode = s.errCode := rfl
@[simp] theorem writeBlock_lastOp (s : State) (k : SlotIdx) (r c : Nat) (M : Mat) :
    (writeBlock s k r c M).lastOp = s.lastOp := rfl
@[simp] theorem writeBlock_doneIe (s : State) (k : SlotIdx) (r c : Nat) (M : Mat) :
    (writeBlock s k r c M).doneIe = s.doneIe := rfl
@[simp] theorem writeBlock_errIe (s : State) (k : SlotIdx) (r c : Nat) (M : Mat) :
    (writeBlock s k r c M).errIe = s.errIe := rfl
@[simp] theorem writeBlock_mod (s : State) (k : SlotIdx) (r c : Nat) (M : Mat) :
    (writeBlock s k r c M).mod = s.mod := rfl
@[simp] theorem writeBlock_scalarA (s : State) (k : SlotIdx) (r c : Nat) (M : Mat) :
    (writeBlock s k r c M).scalarA = s.scalarA := rfl
@[simp] theorem writeBlock_scalarR (s : State) (k : SlotIdx) (r c : Nat) (M : Mat) :
    (writeBlock s k r c M).scalarR = s.scalarR := rfl
@[simp] theorem writeBlock_detR (s : State) (k : SlotIdx) (r c : Nat) (M : Mat) :
    (writeBlock s k r c M).detR = s.detR := rfl
@[simp] theorem writeBlock_shapes (s : State) (k : SlotIdx) (r c : Nat) (M : Mat) :
    (writeBlock s k r c M).shapes = s.shapes := rfl
@[simp] theorem writeBlock_mem (s : State) (k : SlotIdx) (r c : Nat) (M : Mat) :
    (writeBlock s k r c M).mem = s.mem.writeWords (blockCells s.params.nmax k r c M) := rfl
@[simp] theorem writeBlock_pending (s : State) (k : SlotIdx) (r c : Nat) (M : Mat) :
    (writeBlock s k r c M).pending = s.pending := rfl
@[simp] theorem writeBlock_fault (s : State) (k : SlotIdx) (r c : Nat) (M : Mat) :
    (writeBlock s k r c M).fault = s.fault := rfl
@[simp] theorem writeBlock_draws (s : State) (k : SlotIdx) (r c : Nat) (M : Mat) :
    (writeBlock s k r c M).draws = s.draws := rfl
@[simp] theorem writeBlock_resp (s : State) (k : SlotIdx) (r c : Nat) (M : Mat) :
    (writeBlock s k r c M).resp = s.resp := rfl
@[simp] theorem writeBlock_sched (s : State) (k : SlotIdx) (r c : Nat) (M : Mat) :
    (writeBlock s k r c M).sched = s.sched := rfl

/-! `recordErr` -/

@[simp] theorem recordErr_params (s : State) (e : ErrCode) (arg : ErrArg) :
    (recordErr s e arg).params = s.params := rfl
@[simp] theorem recordErr_cmd (s : State) (e : ErrCode) (arg : ErrArg) :
    (recordErr s e arg).cmd = s.cmd := rfl
@[simp] theorem recordErr_busy (s : State) (e : ErrCode) (arg : ErrArg) :
    (recordErr s e arg).busy = s.busy := rfl
@[simp] theorem recordErr_done (s : State) (e : ErrCode) (arg : ErrArg) :
    (recordErr s e arg).done = s.done := rfl
@[simp] theorem recordErr_err (s : State) (e : ErrCode) (arg : ErrArg) :
    (recordErr s e arg).err = true := rfl
@[simp] theorem recordErr_busywr (s : State) (e : ErrCode) (arg : ErrArg) :
    (recordErr s e arg).busywr = s.busywr := rfl
@[simp] theorem recordErr_errArg (s : State) (e : ErrCode) (arg : ErrArg) :
    (recordErr s e arg).errArg = errArgBits arg := rfl
@[simp] theorem recordErr_errCode (s : State) (e : ErrCode) (arg : ErrArg) :
    (recordErr s e arg).errCode = errCodeBits e := rfl
@[simp] theorem recordErr_lastOp (s : State) (e : ErrCode) (arg : ErrArg) :
    (recordErr s e arg).lastOp = s.lastOp := rfl
@[simp] theorem recordErr_doneIe (s : State) (e : ErrCode) (arg : ErrArg) :
    (recordErr s e arg).doneIe = s.doneIe := rfl
@[simp] theorem recordErr_errIe (s : State) (e : ErrCode) (arg : ErrArg) :
    (recordErr s e arg).errIe = s.errIe := rfl
@[simp] theorem recordErr_mod (s : State) (e : ErrCode) (arg : ErrArg) :
    (recordErr s e arg).mod = s.mod := rfl
@[simp] theorem recordErr_scalarA (s : State) (e : ErrCode) (arg : ErrArg) :
    (recordErr s e arg).scalarA = s.scalarA := rfl
@[simp] theorem recordErr_scalarR (s : State) (e : ErrCode) (arg : ErrArg) :
    (recordErr s e arg).scalarR = s.scalarR := rfl
@[simp] theorem recordErr_detR (s : State) (e : ErrCode) (arg : ErrArg) :
    (recordErr s e arg).detR = s.detR := rfl
@[simp] theorem recordErr_shapes (s : State) (e : ErrCode) (arg : ErrArg) :
    (recordErr s e arg).shapes = s.shapes := rfl
@[simp] theorem recordErr_mem (s : State) (e : ErrCode) (arg : ErrArg) :
    (recordErr s e arg).mem = s.mem := rfl
@[simp] theorem recordErr_pending (s : State) (e : ErrCode) (arg : ErrArg) :
    (recordErr s e arg).pending = s.pending := rfl
@[simp] theorem recordErr_fault (s : State) (e : ErrCode) (arg : ErrArg) :
    (recordErr s e arg).fault = s.fault := rfl
@[simp] theorem recordErr_draws (s : State) (e : ErrCode) (arg : ErrArg) :
    (recordErr s e arg).draws = s.draws := rfl
@[simp] theorem recordErr_resp (s : State) (e : ErrCode) (arg : ErrArg) :
    (recordErr s e arg).resp = s.resp := rfl
@[simp] theorem recordErr_sched (s : State) (e : ErrCode) (arg : ErrArg) :
    (recordErr s e arg).sched = s.sched := rfl

/-! `recordFault` -/

@[simp] theorem recordFault_params (s : State) (f : Fault) :
    (recordFault s f).params = s.params := rfl
@[simp] theorem recordFault_cmd (s : State) (f : Fault) :
    (recordFault s f).cmd = s.cmd := rfl
@[simp] theorem recordFault_busy (s : State) (f : Fault) :
    (recordFault s f).busy = s.busy := rfl
@[simp] theorem recordFault_done (s : State) (f : Fault) :
    (recordFault s f).done = s.done := rfl
@[simp] theorem recordFault_err (s : State) (f : Fault) :
    (recordFault s f).err = s.err := rfl
@[simp] theorem recordFault_busywr (s : State) (f : Fault) :
    (recordFault s f).busywr = s.busywr := rfl
@[simp] theorem recordFault_errArg (s : State) (f : Fault) :
    (recordFault s f).errArg = s.errArg := rfl
@[simp] theorem recordFault_errCode (s : State) (f : Fault) :
    (recordFault s f).errCode = s.errCode := rfl
@[simp] theorem recordFault_lastOp (s : State) (f : Fault) :
    (recordFault s f).lastOp = s.lastOp := rfl
@[simp] theorem recordFault_doneIe (s : State) (f : Fault) :
    (recordFault s f).doneIe = s.doneIe := rfl
@[simp] theorem recordFault_errIe (s : State) (f : Fault) :
    (recordFault s f).errIe = s.errIe := rfl
@[simp] theorem recordFault_mod (s : State) (f : Fault) :
    (recordFault s f).mod = s.mod := rfl
@[simp] theorem recordFault_scalarA (s : State) (f : Fault) :
    (recordFault s f).scalarA = s.scalarA := rfl
@[simp] theorem recordFault_scalarR (s : State) (f : Fault) :
    (recordFault s f).scalarR = s.scalarR := rfl
@[simp] theorem recordFault_detR (s : State) (f : Fault) :
    (recordFault s f).detR = s.detR := rfl
@[simp] theorem recordFault_shapes (s : State) (f : Fault) :
    (recordFault s f).shapes = s.shapes := rfl
@[simp] theorem recordFault_mem (s : State) (f : Fault) :
    (recordFault s f).mem = s.mem := rfl
@[simp] theorem recordFault_pending (s : State) (f : Fault) :
    (recordFault s f).pending = s.pending := rfl
@[simp] theorem recordFault_fault (s : State) (f : Fault) :
    (recordFault s f).fault = some f := rfl
@[simp] theorem recordFault_draws (s : State) (f : Fault) :
    (recordFault s f).draws = s.draws := rfl
@[simp] theorem recordFault_resp (s : State) (f : Fault) :
    (recordFault s f).resp = s.resp := rfl
@[simp] theorem recordFault_sched (s : State) (f : Fault) :
    (recordFault s f).sched = s.sched := rfl

/-! `finish` -/

@[simp] theorem finish_params (s : State) :
    (finish s).params = s.params := rfl
@[simp] theorem finish_cmd (s : State) :
    (finish s).cmd = s.cmd := rfl
@[simp] theorem finish_busy (s : State) :
    (finish s).busy = false := rfl
@[simp] theorem finish_done (s : State) :
    (finish s).done = true := rfl
@[simp] theorem finish_err (s : State) :
    (finish s).err = s.err := rfl
@[simp] theorem finish_busywr (s : State) :
    (finish s).busywr = s.busywr := rfl
@[simp] theorem finish_errArg (s : State) :
    (finish s).errArg = s.errArg := rfl
@[simp] theorem finish_errCode (s : State) :
    (finish s).errCode = s.errCode := rfl
@[simp] theorem finish_lastOp (s : State) :
    (finish s).lastOp = s.lastOp := rfl
@[simp] theorem finish_doneIe (s : State) :
    (finish s).doneIe = s.doneIe := rfl
@[simp] theorem finish_errIe (s : State) :
    (finish s).errIe = s.errIe := rfl
@[simp] theorem finish_mod (s : State) :
    (finish s).mod = s.mod := rfl
@[simp] theorem finish_scalarA (s : State) :
    (finish s).scalarA = s.scalarA := rfl
@[simp] theorem finish_scalarR (s : State) :
    (finish s).scalarR = s.scalarR := rfl
@[simp] theorem finish_detR (s : State) :
    (finish s).detR = s.detR := rfl
@[simp] theorem finish_shapes (s : State) :
    (finish s).shapes = s.shapes := rfl
@[simp] theorem finish_mem (s : State) :
    (finish s).mem = s.mem := rfl
@[simp] theorem finish_pending (s : State) :
    (finish s).pending = none := rfl
@[simp] theorem finish_fault (s : State) :
    (finish s).fault = s.fault := rfl
@[simp] theorem finish_draws (s : State) :
    (finish s).draws = s.draws := rfl
@[simp] theorem finish_resp (s : State) :
    (finish s).resp = s.resp := rfl
@[simp] theorem finish_sched (s : State) :
    (finish s).sched = s.sched := rfl

/-! `accept` -/

@[simp] theorem accept_params (s : State) (w : Word) :
    (accept s w).params = s.params := rfl
@[simp] theorem accept_cmd (s : State) (w : Word) :
    (accept s w).cmd = w := rfl
@[simp] theorem accept_busy (s : State) (w : Word) :
    (accept s w).busy = true := rfl
@[simp] theorem accept_done (s : State) (w : Word) :
    (accept s w).done = false := rfl
@[simp] theorem accept_err (s : State) (w : Word) :
    (accept s w).err = false := rfl
@[simp] theorem accept_busywr (s : State) (w : Word) :
    (accept s w).busywr = s.busywr := rfl
@[simp] theorem accept_errArg (s : State) (w : Word) :
    (accept s w).errArg = 0#4 := rfl
@[simp] theorem accept_errCode (s : State) (w : Word) :
    (accept s w).errCode = 0#8 := rfl
@[simp] theorem accept_lastOp (s : State) (w : Word) :
    (accept s w).lastOp = opField w := rfl
@[simp] theorem accept_doneIe (s : State) (w : Word) :
    (accept s w).doneIe = s.doneIe := rfl
@[simp] theorem accept_errIe (s : State) (w : Word) :
    (accept s w).errIe = s.errIe := rfl
@[simp] theorem accept_mod (s : State) (w : Word) :
    (accept s w).mod = s.mod := rfl
@[simp] theorem accept_scalarA (s : State) (w : Word) :
    (accept s w).scalarA = s.scalarA := rfl
@[simp] theorem accept_scalarR (s : State) (w : Word) :
    (accept s w).scalarR = s.scalarR := rfl
@[simp] theorem accept_detR (s : State) (w : Word) :
    (accept s w).detR = s.detR := rfl
@[simp] theorem accept_shapes (s : State) (w : Word) :
    (accept s w).shapes = s.shapes := rfl
@[simp] theorem accept_mem (s : State) (w : Word) :
    (accept s w).mem = s.mem := rfl
@[simp] theorem accept_pending (s : State) (w : Word) :
    (accept s w).pending = some w := rfl
@[simp] theorem accept_fault (s : State) (w : Word) :
    (accept s w).fault = s.fault := rfl
@[simp] theorem accept_draws (s : State) (w : Word) :
    (accept s w).draws = s.draws := rfl
@[simp] theorem accept_resp (s : State) (w : Word) :
    (accept s w).resp = s.resp := rfl
@[simp] theorem accept_sched (s : State) (w : Word) :
    (accept s w).sched = s.sched := rfl

/-! `softReset` -/

@[simp] theorem softReset_params (s : State) :
    (softReset s).params = s.params := rfl
@[simp] theorem softReset_cmd (s : State) :
    (softReset s).cmd = 0#32 := rfl
@[simp] theorem softReset_busy (s : State) :
    (softReset s).busy = false := rfl
@[simp] theorem softReset_done (s : State) :
    (softReset s).done = false := rfl
@[simp] theorem softReset_err (s : State) :
    (softReset s).err = false := rfl
@[simp] theorem softReset_busywr (s : State) :
    (softReset s).busywr = false := rfl
@[simp] theorem softReset_errArg (s : State) :
    (softReset s).errArg = 0#4 := rfl
@[simp] theorem softReset_errCode (s : State) :
    (softReset s).errCode = 0#8 := rfl
@[simp] theorem softReset_lastOp (s : State) :
    (softReset s).lastOp = 0#8 := rfl
@[simp] theorem softReset_doneIe (s : State) :
    (softReset s).doneIe = false := rfl
@[simp] theorem softReset_errIe (s : State) :
    (softReset s).errIe = false := rfl
@[simp] theorem softReset_mod (s : State) :
    (softReset s).mod = 0#32 := rfl
@[simp] theorem softReset_scalarA (s : State) :
    (softReset s).scalarA = 0#32 := rfl
@[simp] theorem softReset_scalarR (s : State) :
    (softReset s).scalarR = 0#32 := rfl
@[simp] theorem softReset_detR (s : State) :
    (softReset s).detR = 0#32 := rfl
@[simp] theorem softReset_shapes (s : State) :
    (softReset s).shapes = List.replicate s.params.nslot ⟨0#8, 0#8⟩ := rfl
@[simp] theorem softReset_mem (s : State) :
    (softReset s).mem = s.mem := rfl
@[simp] theorem softReset_pending (s : State) :
    (softReset s).pending = none := rfl
@[simp] theorem softReset_fault (s : State) :
    (softReset s).fault = s.fault := rfl
@[simp] theorem softReset_draws (s : State) :
    (softReset s).draws = s.draws := rfl
@[simp] theorem softReset_resp (s : State) :
    (softReset s).resp = s.resp := rfl
@[simp] theorem softReset_sched (s : State) :
    (softReset s).sched = s.sched := rfl

/-! `powerOnReset` -/

@[simp] theorem powerOnReset_params (s : State) :
    (powerOnReset s).params = s.params := rfl
@[simp] theorem powerOnReset_cmd (s : State) :
    (powerOnReset s).cmd = 0#32 := rfl
@[simp] theorem powerOnReset_busy (s : State) :
    (powerOnReset s).busy = false := rfl
@[simp] theorem powerOnReset_done (s : State) :
    (powerOnReset s).done = false := rfl
@[simp] theorem powerOnReset_err (s : State) :
    (powerOnReset s).err = false := rfl
@[simp] theorem powerOnReset_busywr (s : State) :
    (powerOnReset s).busywr = false := rfl
@[simp] theorem powerOnReset_errArg (s : State) :
    (powerOnReset s).errArg = 0#4 := rfl
@[simp] theorem powerOnReset_errCode (s : State) :
    (powerOnReset s).errCode = 0#8 := rfl
@[simp] theorem powerOnReset_lastOp (s : State) :
    (powerOnReset s).lastOp = 0#8 := rfl
@[simp] theorem powerOnReset_doneIe (s : State) :
    (powerOnReset s).doneIe = false := rfl
@[simp] theorem powerOnReset_errIe (s : State) :
    (powerOnReset s).errIe = false := rfl
@[simp] theorem powerOnReset_mod (s : State) :
    (powerOnReset s).mod = 0#32 := rfl
@[simp] theorem powerOnReset_scalarA (s : State) :
    (powerOnReset s).scalarA = 0#32 := rfl
@[simp] theorem powerOnReset_scalarR (s : State) :
    (powerOnReset s).scalarR = 0#32 := rfl
@[simp] theorem powerOnReset_detR (s : State) :
    (powerOnReset s).detR = 0#32 := rfl
@[simp] theorem powerOnReset_shapes (s : State) :
    (powerOnReset s).shapes = List.replicate s.params.nslot ⟨0#8, 0#8⟩ := rfl
@[simp] theorem powerOnReset_mem (s : State) :
    (powerOnReset s).mem = [] := rfl
@[simp] theorem powerOnReset_pending (s : State) :
    (powerOnReset s).pending = none := rfl
@[simp] theorem powerOnReset_fault (s : State) :
    (powerOnReset s).fault = none := rfl
@[simp] theorem powerOnReset_draws (s : State) :
    (powerOnReset s).draws = s.draws := rfl
@[simp] theorem powerOnReset_resp (s : State) :
    (powerOnReset s).resp = none := rfl
@[simp] theorem powerOnReset_sched (s : State) :
    (powerOnReset s).sched = s.sched := rfl

/-! `clearStatus` -/

@[simp] theorem clearStatus_params (s : State) (v : Word) :
    (clearStatus s v).params = s.params := rfl
@[simp] theorem clearStatus_cmd (s : State) (v : Word) :
    (clearStatus s v).cmd = s.cmd := rfl
@[simp] theorem clearStatus_busy (s : State) (v : Word) :
    (clearStatus s v).busy = s.busy := rfl
@[simp] theorem clearStatus_done (s : State) (v : Word) :
    (clearStatus s v).done = (s.done && !v.getLsbD 1) := rfl
@[simp] theorem clearStatus_err (s : State) (v : Word) :
    (clearStatus s v).err = (s.err && !v.getLsbD 2) := rfl
@[simp] theorem clearStatus_busywr (s : State) (v : Word) :
    (clearStatus s v).busywr = (s.busywr && !v.getLsbD 3) := rfl
@[simp] theorem clearStatus_errArg (s : State) (v : Word) :
    (clearStatus s v).errArg = s.errArg := rfl
@[simp] theorem clearStatus_errCode (s : State) (v : Word) :
    (clearStatus s v).errCode = s.errCode := rfl
@[simp] theorem clearStatus_lastOp (s : State) (v : Word) :
    (clearStatus s v).lastOp = s.lastOp := rfl
@[simp] theorem clearStatus_doneIe (s : State) (v : Word) :
    (clearStatus s v).doneIe = s.doneIe := rfl
@[simp] theorem clearStatus_errIe (s : State) (v : Word) :
    (clearStatus s v).errIe = s.errIe := rfl
@[simp] theorem clearStatus_mod (s : State) (v : Word) :
    (clearStatus s v).mod = s.mod := rfl
@[simp] theorem clearStatus_scalarA (s : State) (v : Word) :
    (clearStatus s v).scalarA = s.scalarA := rfl
@[simp] theorem clearStatus_scalarR (s : State) (v : Word) :
    (clearStatus s v).scalarR = s.scalarR := rfl
@[simp] theorem clearStatus_detR (s : State) (v : Word) :
    (clearStatus s v).detR = s.detR := rfl
@[simp] theorem clearStatus_shapes (s : State) (v : Word) :
    (clearStatus s v).shapes = s.shapes := rfl
@[simp] theorem clearStatus_mem (s : State) (v : Word) :
    (clearStatus s v).mem = s.mem := rfl
@[simp] theorem clearStatus_pending (s : State) (v : Word) :
    (clearStatus s v).pending = s.pending := rfl
@[simp] theorem clearStatus_fault (s : State) (v : Word) :
    (clearStatus s v).fault = s.fault := rfl
@[simp] theorem clearStatus_draws (s : State) (v : Word) :
    (clearStatus s v).draws = s.draws := rfl
@[simp] theorem clearStatus_resp (s : State) (v : Word) :
    (clearStatus s v).resp = s.resp := rfl
@[simp] theorem clearStatus_sched (s : State) (v : Word) :
    (clearStatus s v).sched = s.sched := rfl

/-! `respond` -/

@[simp] theorem respond_params (r : BusResp × State) :
    (respond r).params = r.2.params := rfl
@[simp] theorem respond_cmd (r : BusResp × State) :
    (respond r).cmd = r.2.cmd := rfl
@[simp] theorem respond_busy (r : BusResp × State) :
    (respond r).busy = r.2.busy := rfl
@[simp] theorem respond_done (r : BusResp × State) :
    (respond r).done = r.2.done := rfl
@[simp] theorem respond_err (r : BusResp × State) :
    (respond r).err = r.2.err := rfl
@[simp] theorem respond_busywr (r : BusResp × State) :
    (respond r).busywr = r.2.busywr := rfl
@[simp] theorem respond_errArg (r : BusResp × State) :
    (respond r).errArg = r.2.errArg := rfl
@[simp] theorem respond_errCode (r : BusResp × State) :
    (respond r).errCode = r.2.errCode := rfl
@[simp] theorem respond_lastOp (r : BusResp × State) :
    (respond r).lastOp = r.2.lastOp := rfl
@[simp] theorem respond_doneIe (r : BusResp × State) :
    (respond r).doneIe = r.2.doneIe := rfl
@[simp] theorem respond_errIe (r : BusResp × State) :
    (respond r).errIe = r.2.errIe := rfl
@[simp] theorem respond_mod (r : BusResp × State) :
    (respond r).mod = r.2.mod := rfl
@[simp] theorem respond_scalarA (r : BusResp × State) :
    (respond r).scalarA = r.2.scalarA := rfl
@[simp] theorem respond_scalarR (r : BusResp × State) :
    (respond r).scalarR = r.2.scalarR := rfl
@[simp] theorem respond_detR (r : BusResp × State) :
    (respond r).detR = r.2.detR := rfl
@[simp] theorem respond_shapes (r : BusResp × State) :
    (respond r).shapes = r.2.shapes := rfl
@[simp] theorem respond_mem (r : BusResp × State) :
    (respond r).mem = r.2.mem := rfl
@[simp] theorem respond_pending (r : BusResp × State) :
    (respond r).pending = r.2.pending := rfl
@[simp] theorem respond_fault (r : BusResp × State) :
    (respond r).fault = r.2.fault := rfl
@[simp] theorem respond_draws (r : BusResp × State) :
    (respond r).draws = r.2.draws := rfl
@[simp] theorem respond_resp (r : BusResp × State) :
    (respond r).resp = some r.1 := rfl
@[simp] theorem respond_sched (r : BusResp × State) :
    (respond r).sched = r.2.sched := rfl

/-! `loadCommand` -/

@[simp] theorem loadCommand_params (s : State) (w : Word) :
    (loadCommand s w).params = s.params := rfl
@[simp] theorem loadCommand_cmd (s : State) (w : Word) :
    (loadCommand s w).cmd = w := rfl
@[simp] theorem loadCommand_busy (s : State) (w : Word) :
    (loadCommand s w).busy = true := rfl
@[simp] theorem loadCommand_done (s : State) (w : Word) :
    (loadCommand s w).done = false := rfl
@[simp] theorem loadCommand_err (s : State) (w : Word) :
    (loadCommand s w).err = false := rfl
@[simp] theorem loadCommand_busywr (s : State) (w : Word) :
    (loadCommand s w).busywr = s.busywr := rfl
@[simp] theorem loadCommand_errArg (s : State) (w : Word) :
    (loadCommand s w).errArg = 0#4 := rfl
@[simp] theorem loadCommand_errCode (s : State) (w : Word) :
    (loadCommand s w).errCode = 0#8 := rfl
@[simp] theorem loadCommand_lastOp (s : State) (w : Word) :
    (loadCommand s w).lastOp = opField w := rfl
@[simp] theorem loadCommand_doneIe (s : State) (w : Word) :
    (loadCommand s w).doneIe = s.doneIe := rfl
@[simp] theorem loadCommand_errIe (s : State) (w : Word) :
    (loadCommand s w).errIe = s.errIe := rfl
@[simp] theorem loadCommand_mod (s : State) (w : Word) :
    (loadCommand s w).mod = s.mod := rfl
@[simp] theorem loadCommand_scalarA (s : State) (w : Word) :
    (loadCommand s w).scalarA = s.scalarA := rfl
@[simp] theorem loadCommand_scalarR (s : State) (w : Word) :
    (loadCommand s w).scalarR = s.scalarR := rfl
@[simp] theorem loadCommand_detR (s : State) (w : Word) :
    (loadCommand s w).detR = s.detR := rfl
@[simp] theorem loadCommand_shapes (s : State) (w : Word) :
    (loadCommand s w).shapes = s.shapes := rfl
@[simp] theorem loadCommand_mem (s : State) (w : Word) :
    (loadCommand s w).mem = s.mem := rfl
@[simp] theorem loadCommand_pending (s : State) (w : Word) :
    (loadCommand s w).pending = some w := rfl
@[simp] theorem loadCommand_fault (s : State) (w : Word) :
    (loadCommand s w).fault = s.fault := rfl
@[simp] theorem loadCommand_draws (s : State) (w : Word) :
    (loadCommand s w).draws = s.draws := rfl
@[simp] theorem loadCommand_resp (s : State) (w : Word) :
    (loadCommand s w).resp = s.resp := rfl
@[simp] theorem loadCommand_sched (s : State) (w : Word) :
    (loadCommand s w).sched = .complete :: s.sched := rfl

/-! `State.failedWith` -/

@[simp] theorem State.failedWith_params (s : State) (e : BitVec 8) (arg : BitVec 4) :
    (s.failedWith e arg).params = s.params := rfl
@[simp] theorem State.failedWith_cmd (s : State) (e : BitVec 8) (arg : BitVec 4) :
    (s.failedWith e arg).cmd = s.cmd := rfl
@[simp] theorem State.failedWith_busy (s : State) (e : BitVec 8) (arg : BitVec 4) :
    (s.failedWith e arg).busy = false := rfl
@[simp] theorem State.failedWith_done (s : State) (e : BitVec 8) (arg : BitVec 4) :
    (s.failedWith e arg).done = true := rfl
@[simp] theorem State.failedWith_err (s : State) (e : BitVec 8) (arg : BitVec 4) :
    (s.failedWith e arg).err = true := rfl
@[simp] theorem State.failedWith_busywr (s : State) (e : BitVec 8) (arg : BitVec 4) :
    (s.failedWith e arg).busywr = s.busywr := rfl
@[simp] theorem State.failedWith_errArg (s : State) (e : BitVec 8) (arg : BitVec 4) :
    (s.failedWith e arg).errArg = arg := rfl
@[simp] theorem State.failedWith_errCode (s : State) (e : BitVec 8) (arg : BitVec 4) :
    (s.failedWith e arg).errCode = e := rfl
@[simp] theorem State.failedWith_lastOp (s : State) (e : BitVec 8) (arg : BitVec 4) :
    (s.failedWith e arg).lastOp = s.lastOp := rfl
@[simp] theorem State.failedWith_doneIe (s : State) (e : BitVec 8) (arg : BitVec 4) :
    (s.failedWith e arg).doneIe = s.doneIe := rfl
@[simp] theorem State.failedWith_errIe (s : State) (e : BitVec 8) (arg : BitVec 4) :
    (s.failedWith e arg).errIe = s.errIe := rfl
@[simp] theorem State.failedWith_mod (s : State) (e : BitVec 8) (arg : BitVec 4) :
    (s.failedWith e arg).mod = s.mod := rfl
@[simp] theorem State.failedWith_scalarA (s : State) (e : BitVec 8) (arg : BitVec 4) :
    (s.failedWith e arg).scalarA = s.scalarA := rfl
@[simp] theorem State.failedWith_scalarR (s : State) (e : BitVec 8) (arg : BitVec 4) :
    (s.failedWith e arg).scalarR = s.scalarR := rfl
@[simp] theorem State.failedWith_detR (s : State) (e : BitVec 8) (arg : BitVec 4) :
    (s.failedWith e arg).detR = s.detR := rfl
@[simp] theorem State.failedWith_shapes (s : State) (e : BitVec 8) (arg : BitVec 4) :
    (s.failedWith e arg).shapes = s.shapes := rfl
@[simp] theorem State.failedWith_mem (s : State) (e : BitVec 8) (arg : BitVec 4) :
    (s.failedWith e arg).mem = s.mem := rfl
@[simp] theorem State.failedWith_pending (s : State) (e : BitVec 8) (arg : BitVec 4) :
    (s.failedWith e arg).pending = none := rfl
@[simp] theorem State.failedWith_fault (s : State) (e : BitVec 8) (arg : BitVec 4) :
    (s.failedWith e arg).fault = s.fault := rfl
@[simp] theorem State.failedWith_draws (s : State) (e : BitVec 8) (arg : BitVec 4) :
    (s.failedWith e arg).draws = s.draws := rfl
@[simp] theorem State.failedWith_resp (s : State) (e : BitVec 8) (arg : BitVec 4) :
    (s.failedWith e arg).resp = s.resp := rfl
@[simp] theorem State.failedWith_sched (s : State) (e : BitVec 8) (arg : BitVec 4) :
    (s.failedWith e arg).sched = s.sched := rfl

/-! `State.powerOn` -/

@[simp] theorem State.powerOn_params (p : Params) :
    (State.powerOn p).params = p := rfl
@[simp] theorem State.powerOn_cmd (p : Params) :
    (State.powerOn p).cmd = 0#32 := rfl
@[simp] theorem State.powerOn_busy (p : Params) :
    (State.powerOn p).busy = false := rfl
@[simp] theorem State.powerOn_done (p : Params) :
    (State.powerOn p).done = false := rfl
@[simp] theorem State.powerOn_err (p : Params) :
    (State.powerOn p).err = false := rfl
@[simp] theorem State.powerOn_busywr (p : Params) :
    (State.powerOn p).busywr = false := rfl
@[simp] theorem State.powerOn_errArg (p : Params) :
    (State.powerOn p).errArg = 0#4 := rfl
@[simp] theorem State.powerOn_errCode (p : Params) :
    (State.powerOn p).errCode = 0#8 := rfl
@[simp] theorem State.powerOn_lastOp (p : Params) :
    (State.powerOn p).lastOp = 0#8 := rfl
@[simp] theorem State.powerOn_doneIe (p : Params) :
    (State.powerOn p).doneIe = false := rfl
@[simp] theorem State.powerOn_errIe (p : Params) :
    (State.powerOn p).errIe = false := rfl
@[simp] theorem State.powerOn_mod (p : Params) :
    (State.powerOn p).mod = 0#32 := rfl
@[simp] theorem State.powerOn_scalarA (p : Params) :
    (State.powerOn p).scalarA = 0#32 := rfl
@[simp] theorem State.powerOn_scalarR (p : Params) :
    (State.powerOn p).scalarR = 0#32 := rfl
@[simp] theorem State.powerOn_detR (p : Params) :
    (State.powerOn p).detR = 0#32 := rfl
@[simp] theorem State.powerOn_shapes (p : Params) :
    (State.powerOn p).shapes = List.replicate p.nslot ⟨0#8, 0#8⟩ := rfl
@[simp] theorem State.powerOn_mem (p : Params) :
    (State.powerOn p).mem = [] := rfl
@[simp] theorem State.powerOn_pending (p : Params) :
    (State.powerOn p).pending = none := rfl
@[simp] theorem State.powerOn_fault (p : Params) :
    (State.powerOn p).fault = none := rfl
@[simp] theorem State.powerOn_draws (p : Params) :
    (State.powerOn p).draws = 0 := rfl
@[simp] theorem State.powerOn_resp (p : Params) :
    (State.powerOn p).resp = none := rfl
@[simp] theorem State.powerOn_sched (p : Params) :
    (State.powerOn p).sched = [] := rfl

end Sys2Proof.Machine
end

