-- ==== Sys2Proof/Laws/Operands.lean ====
section
/-! SUPPORT. What each check of `Exec` can answer (40_command_model.md R124, R129, R130): one lemma for when it passes, one
that says everything a pass means. -/

namespace Sys2Proof.Machine

/-! ### The chain of checks -/

@[simp] theorem except_ok_bind {ε α β : Type} (a : α) (f : α → Except ε β) : (Except.ok a >>= f) = f a := rfl

@[simp] theorem except_error_bind {ε α β : Type} (e : ε) (f : α → Except ε β) :
    ((Except.error e : Except ε α) >>= f) = .error e := rfl

/-- A chain that succeeds passed through its first part. -/
theorem bind_eq_ok {ε α β : Type} {x : Except ε α} {f : α → Except ε β} {b : β} (h : (x >>= f) = .ok b) :
    ∃ a, x = .ok a ∧ f a = .ok b := by
  cases x with
  | error e => cases h
  | ok a => exact ⟨a, rfl, h⟩

@[simp] theorem require_true (stop : CmdStop) : require true stop = .ok () := rfl

@[simp] theorem require_false (stop : CmdStop) : require false stop = .error stop := rfl

theorem require_eq_ok {ok : Bool} {stop : CmdStop} {u : Unit} (h : require ok stop = .ok u) : ok = true := by
  cases ok <;> simp_all

/-! ### The common prefix -/

theorem checkSlots_ok {s : State} {l : List (SlotIdx × ErrArg)} (h : ∀ p ∈ l, p.1 < s.params.nslot) :
    checkSlots s l = .ok () := by
  induction l with
  | nil => rfl
  | cons p rest ih =>
    have hp := h p (by simp)
    simp only [checkSlots, if_neg (not_le.mpr hp)]
    exact ih fun q hq => h q (by simp [hq])

theorem checkSlots_eq_ok {s : State} {l : List (SlotIdx × ErrArg)} {u : Unit} (h : checkSlots s l = .ok u) :
    ∀ p ∈ l, p.1 < s.params.nslot := by
  induction l with
  | nil => simp
  | cons p rest ih =>
    obtain ⟨k, arg⟩ := p
    simp only [checkSlots] at h
    split at h
    · cases h
    · next hk =>
      intro q hq
      rcases List.mem_cons.mp hq with rfl | hq
      · exact not_le.mp hk
      · exact ih h q hq

theorem checkModulus_ok {s : State} (h : s.ModulusLegal) : checkModulus s = .ok (uint32 s.mod) := if_pos h

theorem checkModulus_bad {s : State} (h : ¬ s.ModulusLegal) :
    checkModulus s = .error (.err .badModulus .none) := if_neg h

theorem checkModulus_eq_ok {s : State} {m : Nat} (h : checkModulus s = .ok m) :
    s.ModulusLegal ∧ m = uint32 s.mod := by
  unfold checkModulus at h
  split at h
  · next hl => exact ⟨hl, (Except.ok.inj h).symm⟩
  · cases h

theorem checkShapes_ok {s : State} {l : List (SlotIdx × ErrArg)}
    (h : ∀ p ∈ l, legalShape s.params.nmax (shapeAt s p.1) = true) : checkShapes s l = .ok () := by
  induction l with
  | nil => rfl
  | cons p rest ih =>
    simp only [checkShapes, h p (by simp), if_true]
    exact ih fun q hq => h q (by simp [hq])

theorem checkShapes_eq_ok {s : State} {l : List (SlotIdx × ErrArg)} {u : Unit} (h : checkShapes s l = .ok u) :
    ∀ p ∈ l, legalShape s.params.nmax (shapeAt s p.1) = true := by
  induction l with
  | nil => simp
  | cons p rest ih =>
    obtain ⟨k, arg⟩ := p
    simp only [checkShapes] at h
    split at h
    · next hk =>
      intro q hq
      rcases List.mem_cons.mp hq with rfl | hq
      · exact hk
      · exact ih h q hq
    · cases h

theorem legalShape_iff {nmax : Nat} {sh : Shape} :
    legalShape nmax sh = true ↔
      1 ≤ sh.rows.toNat ∧ sh.rows.toNat ≤ nmax ∧ 1 ≤ sh.cols.toNat ∧ sh.cols.toNat ≤ nmax := by
  simp [legalShape, and_assoc]

/-- The prefix passes with the modulus when every check does. -/
theorem commonPrefix_ok {s : State} {slots sources : List (SlotIdx × ErrArg)} {rule : Bool}
    (hslots : ∀ p ∈ slots, p.1 < s.params.nslot) (hrule : rule = true) (hm : s.ModulusLegal)
    (hshapes : ∀ p ∈ sources, legalShape s.params.nmax (shapeAt s p.1) = true) :
    commonPrefix s slots sources rule = .ok (uint32 s.mod) := by
  simp only [commonPrefix, checkSlots_ok hslots, hrule, checkModulus_ok hm, checkShapes_ok hshapes, require_true,
    except_ok_bind]

/-- Everything a passed prefix means. -/
theorem commonPrefix_eq_ok {s : State} {slots sources : List (SlotIdx × ErrArg)} {rule : Bool} {m : Nat}
    (h : commonPrefix s slots sources rule = .ok m) :
    (∀ p ∈ slots, p.1 < s.params.nslot) ∧ rule = true ∧ s.ModulusLegal ∧ m = uint32 s.mod ∧
      ∀ p ∈ sources, legalShape s.params.nmax (shapeAt s p.1) = true := by
  obtain ⟨_, h1, h⟩ := bind_eq_ok h
  obtain ⟨_, h2, h⟩ := bind_eq_ok h
  obtain ⟨m', h3, h⟩ := bind_eq_ok h
  obtain ⟨_, h4, h⟩ := bind_eq_ok h
  cases h
  exact ⟨checkSlots_eq_ok h1, require_eq_ok h2, (checkModulus_eq_ok h3).1, (checkModulus_eq_ok h3).2,
    checkShapes_eq_ok h4⟩

/-! ### Operands -/

/-- Everything a read operand means: the slot's shape, and its entries reduced mod m. -/
theorem readOperand_eq_ok {s : State} {m : Nat} {k : SlotIdx} {X : Operand} (h : readOperand s m k = .ok X) :
    allWritten s k (shapeAt s k).rows.toNat (shapeAt s k).cols.toNat = true ∧
      X = ⟨(shapeAt s k).rows.toNat, (shapeAt s k).cols.toNat,
        matOf (shapeAt s k).rows.toNat (shapeAt s k).cols.toNat fun i j => entryInt s k i j % m⟩ := by
  unfold readOperand readBlock at h
  split at h
  · next hw => exact ⟨hw, (Except.ok.inj h).symm⟩
  · cases h

theorem legalShape_of_holds {s : State} {k : SlotIdx} {r c : Nat} {A : Matrix (Fin r) (Fin c) ℤ}
    (h : s.SlotHolds k r c A) : legalShape s.params.nmax (shapeAt s k) = true := by
  obtain ⟨_, h1, h2, h3, h4, hr, hc, _⟩ := h
  exact legalShape_iff.mpr ⟨hr ▸ h1, hr ▸ h2, hc ▸ h3, hc ▸ h4⟩

theorem entryInt_of_holds {s : State} {k : SlotIdx} {r c : Nat} {A : Matrix (Fin r) (Fin c) ℤ}
    (h : s.SlotHolds k r c A) (i : Fin r) (j : Fin c) : entryInt s k i j = A i j := by
  have := h.2.2.2.2.2.2.2 i j
  unfold entryInt
  cases hw : entryAt s k i j with
  | none => simp [hw] at this
  | some w => simpa [hw] using this

/-- A slot that holds `A` is read as `A mod m` (40_command_model.md R130). -/
theorem readOperand_of_holds {s : State} {k : SlotIdx} {r c : Nat} {A : Matrix (Fin r) (Fin c) ℤ} (m : Nat)
    (h : s.SlotHolds k r c A) :
    ∃ X, readOperand s m k = .ok ⟨r, c, X⟩ ∧ matrixOf r c X = Matrix.of fun i j => A i j % m := by
  have hA := h
  obtain ⟨_, _, _, _, _, hr, hc, hw⟩ := h
  refine ⟨matOf r c fun i j => entryInt s k i j % m, ?_, ?_⟩
  · have hall : allWritten s k r c = true := by
      simp only [allWritten, List.all_eq_true, List.mem_range]
      intro i hi j hj
      have := hw ⟨i, hi⟩ ⟨j, hj⟩
      cases he : entryAt s k i j with
      | none => simp [he] at this
      | some w => rfl
    simp only [readOperand, readBlock, hr, hc, hall, if_true]
  · rw [matrixOf_matOf]
    funext i j
    simp only [Matrix.of_apply, entryInt_of_holds hA]

theorem eqMod_of_read {m r c : Nat} {X : Mat} {A : Matrix (Fin r) (Fin c) ℤ}
    (h : matrixOf r c X = Matrix.of fun i j => A i j % m) : EqMod m (matrixOf r c X) A := by
  intro i j
  rw [h]
  exact Int.emod_emod_of_dvd _ dvd_rfl

end Sys2Proof.Machine
end

