-- ==== Sys2Proof/Laws/Ops.lean ====
section
/-! SUPPORT. What the shared operations on the state do: writing a block of entries (40_command_model.md R126), applying result
writes, and completing a command (R125, R127). -/

namespace Sys2Proof.Machine

/-! ### Addresses of entries -/

theorem entryAddr_mod_four (nmax k i j : Nat) : entryAddr nmax k i j % 4 = 0 := by
  unfold entryAddr
  omega

/-- Different places of one slot are at least a word apart. -/
theorem entryAddr_apart {nmax k i j i' j' : Nat} (hj : j < nmax) (hj' : j' < nmax) (h : ¬ (i = i' ∧ j = j')) :
    entryAddr nmax k i j + 4 ≤ entryAddr nmax k i' j' ∨ entryAddr nmax k i' j' + 4 ≤ entryAddr nmax k i j := by
  have hne : (k * nmax + i) * nmax + j ≠ (k * nmax + i') * nmax + j' := by
    intro he
    have hpos : 0 < nmax := by omega
    have hd := congrArg (· / nmax) he
    have hr := congrArg (· % nmax) he
    simp only [Nat.add_comm _ j, Nat.add_comm _ j', Nat.add_mul_div_right _ _ hpos, Nat.div_eq_of_lt hj,
      Nat.div_eq_of_lt hj', Nat.add_mul_mod_self_right, Nat.mod_eq_of_lt hj, Nat.mod_eq_of_lt hj'] at hd hr
    exact h ⟨by omega, hr⟩
  unfold entryAddr
  omega

/-- The entries of existing slots lie in the entry part of the aperture. -/
theorem entryAddr_in_aperture {nmax nslot k i j : Nat} (hk : k < nslot) (hi : i < nmax) (hj : j < nmax) :
    0x1000 ≤ entryAddr nmax k i j ∧ entryAddr nmax k i j + 4 ≤ apertureSize nmax nslot := by
  have h1 : (k * nmax + i) * nmax + j + 1 ≤ nslot * nmax * nmax := by
    have ha : k * nmax + i + 1 ≤ nslot * nmax := by nlinarith
    nlinarith
  unfold entryAddr apertureSize
  constructor
  · omega
  · nlinarith

/-! ### Blocks of entries -/

theorem mem_blockCells {nmax k r c : Nat} {M : Mat} {x : Nat × Word} :
    x ∈ blockCells nmax k r c M ↔ ∃ i < r, ∃ j < c, x = (entryAddr nmax k i j, word32 (entry M i j)) := by
  simp only [blockCells, List.mem_flatMap, List.mem_map, List.mem_range]
  constructor
  · rintro ⟨i, hi, j, hj, rfl⟩
    exact ⟨i, hi, j, hj, rfl⟩
  · rintro ⟨i, hi, j, hj, rfl⟩
    exact ⟨i, hi, j, hj, rfl⟩

theorem blockCells_apart {nmax k r c : Nat} (M : Mat) (hc : c ≤ nmax) :
    (blockCells nmax k r c M).Pairwise fun x y => x.1 + 4 ≤ y.1 ∨ y.1 + 4 ≤ x.1 := by
  rw [blockCells, List.pairwise_flatMap]
  constructor
  · intro i _
    rw [List.pairwise_map]
    refine (List.pairwise_lt_range (n := c)).imp_of_mem fun {j j'} hj hj' hlt => ?_
    exact entryAddr_apart (by have := List.mem_range.mp hj; omega) (by have := List.mem_range.mp hj'; omega)
      (by omega)
  · refine (List.pairwise_lt_range (n := r)).imp fun {i i'} hlt => ?_
    intro x hx y hy
    obtain ⟨j, hj, rfl⟩ := List.mem_map.mp hx
    obtain ⟨j', hj', rfl⟩ := List.mem_map.mp hy
    exact entryAddr_apart (by have := List.mem_range.mp hj; omega) (by have := List.mem_range.mp hj'; omega)
      (by omega)

/-- The entries of a written block (40_command_model.md R126). -/
theorem entryAt_writeBlock {s : State} {k r c i j : Nat} (M : Mat) (hc : c ≤ s.params.nmax) (hi : i < r) (hj : j < c) :
    entryAt (writeBlock s k r c M) k i j = some (word32 (entry M i j)) :=
  Memory.readWord_writeWords_same (mem_blockCells.mpr ⟨i, hi, j, hj, rfl⟩) (blockCells_apart M hc)

/-- Every byte outside a written block keeps its value (40_command_model.md R126). -/
theorem read_writeBlock_other {s : State} {k r c : Nat} (M : Mat) {a : Nat}
    (h : ¬ StoredByte s.params.nmax k r c a) : (writeBlock s k r c M).mem.read a = s.mem.read a := by
  refine Memory.read_writeWords_other fun x hx => ?_
  obtain ⟨i, hi, j, hj, rfl⟩ := mem_blockCells.mp hx
  by_contra hcon
  exact h ⟨i, hi, j, hj, by dsimp at hcon; omega, by dsimp at hcon; omega⟩

/-- Entries of another slot keep their values. -/
theorem entryAt_writeBlock_other {s : State} {k k' r c i j : Nat} (M : Mat) (hk : k' ≠ k) (hr : r ≤ s.params.nmax)
    (hc : c ≤ s.params.nmax) (hi : i < s.params.nmax) (hj : j < s.params.nmax) :
    entryAt (writeBlock s k r c M) k' i j = entryAt s k' i j := by
  refine Memory.readWord_writeWords_other fun x hx => ?_
  obtain ⟨a, ha, b, hb, rfl⟩ := mem_blockCells.mp hx
  show entryAddr s.params.nmax k' i j + 4 ≤ entryAddr s.params.nmax k a b ∨
    entryAddr s.params.nmax k a b + 4 ≤ entryAddr s.params.nmax k' i j
  have hne : (k' * s.params.nmax + i) * s.params.nmax + j ≠ (k * s.params.nmax + a) * s.params.nmax + b := by
    intro he
    have hpos : 0 < s.params.nmax := by omega
    have hd := congrArg (· / s.params.nmax) he
    simp only [Nat.add_comm _ j, Nat.add_comm _ b, Nat.add_mul_div_right _ _ hpos, Nat.div_eq_of_lt hj,
      Nat.div_eq_of_lt (show b < s.params.nmax by omega), Nat.zero_add] at hd
    have hd2 := congrArg (· / s.params.nmax) hd
    simp only [Nat.add_comm _ i, Nat.add_comm _ a, Nat.add_mul_div_right _ _ hpos, Nat.div_eq_of_lt hi,
      Nat.div_eq_of_lt (show a < s.params.nmax by omega), Nat.zero_add] at hd2
    exact hk hd2
  unfold entryAddr
  omega

/-! ### Slots -/

theorem shapeAt_setShape_same {s : State} {k : SlotIdx} (sh : Shape) (h : k < s.shapes.length) :
    shapeAt (setShape s k sh) k = sh := by
  simp [shapeAt, setShape, h]

theorem shapeAt_setShape_other {s : State} {k k' : SlotIdx} (sh : Shape) (h : k' ≠ k) :
    shapeAt (setShape s k sh) k' = shapeAt s k' := by
  simp [shapeAt, setShape, h.symm]

@[simp] theorem shapeAt_writeBlock (s : State) (k k' r c : Nat) (M : Mat) :
    shapeAt (writeBlock s k r c M) k' = shapeAt s k' := rfl

@[simp] theorem shapeAt_finish (s : State) (k : Nat) : shapeAt (finish s) k = shapeAt s k := rfl

@[simp] theorem entryAt_finish (s : State) (k i j : Nat) : entryAt (finish s) k i j = entryAt s k i j := rfl

@[simp] theorem entryAt_setShape (s : State) (k k' i j : Nat) (sh : Shape) :
    entryAt (setShape s k sh) k' i j = entryAt s k' i j := rfl

/-! ### Result writes -/

@[simp] theorem applyWrites_nil (s : State) : applyWrites s [] = s := rfl

@[simp] theorem applyWrites_cons (s : State) (e : ResultWrite) (rest : List ResultWrite) :
    applyWrites s (e :: rest) = applyWrites (applyWrite s e) rest := rfl

@[simp] theorem applyWrite_scalarR (s : State) (v : Int) :
    applyWrite s (.scalarR v) = { s with scalarR := word32 v } := rfl

@[simp] theorem applyWrite_detR (s : State) (v : Int) : applyWrite s (.detR v) = { s with detR := word32 v } := rfl

@[simp] theorem applyWrite_slot (s : State) (k r c : Nat) (M : Mat) :
    applyWrite s (.slot k r c M) =
      writeBlock (setShape s k ⟨BitVec.ofNat 8 r, BitVec.ofNat 8 c⟩) k r c M := rfl

/-- What no result write touches: everything but `SCALAR_R`, `DET_R`, the shapes and the entries (40_command_model.md R126). -/
theorem applyWrites_frame (s : State) (eff : List ResultWrite) :
    s.SameControl (applyWrites s eff) ∧ (applyWrites s eff).busy = s.busy ∧ (applyWrites s eff).done = s.done ∧
      (applyWrites s eff).pending = s.pending ∧ (applyWrites s eff).err = s.err ∧
      (applyWrites s eff).errCode = s.errCode ∧ (applyWrites s eff).errArg = s.errArg ∧
      (applyWrites s eff).fault = s.fault := by
  induction eff generalizing s with
  | nil => simp [State.SameControl]
  | cons e rest ih =>
    have h := ih (applyWrite s e)
    cases e <;> simpa [State.SameControl] using h

/-! ### Completion -/

@[simp] theorem complete_ok (s : State) (eff : List ResultWrite) : complete s (.ok eff) = finish (applyWrites s eff) := rfl

/-- A completion with an error writes `STATUS` and the latch, and nothing else (40_command_model.md R125, R127). -/
@[simp] theorem complete_err (s : State) (code : ErrCode) (arg : ErrArg) :
    complete s (.error (.err code arg)) = s.failedWith (errCodeBits code) (errArgBits arg) := rfl

@[simp] theorem complete_fault (s : State) (f : Fault) :
    complete s (.error (.fault f)) = finish (recordFault s f) := rfl

/-- Everything a completion can be: success, an error, or the model's fault mark. -/
theorem complete_cases (s : State) (res : CmdResult) :
    (∃ eff, res = .ok eff ∧ complete s res = finish (applyWrites s eff)) ∨
    (∃ code arg, res = .error (.err code arg) ∧
      complete s res = s.failedWith (errCodeBits code) (errArgBits arg)) ∨
    (∃ f, res = .error (.fault f) ∧ complete s res = finish (recordFault s f)) := by
  match res with
  | .ok eff => exact .inl ⟨eff, rfl, rfl⟩
  | .error (.err code arg) => exact .inr (.inl ⟨code, arg, rfl, rfl⟩)
  | .error (.fault f) => exact .inr (.inr ⟨f, rfl, rfl⟩)

/-- Whatever the outcome, completion leaves the control registers and the model's own fields (40_command_model.md R125). -/
theorem complete_frame (s : State) (res : CmdResult) :
    s.SameControl (complete s res) ∧ (complete s res).busy = false ∧ (complete s res).done = true ∧
      (complete s res).pending = none := by
  rcases complete_cases s res with ⟨eff, -, h⟩ | ⟨code, arg, -, h⟩ | ⟨f, -, h⟩
  · have := applyWrites_frame s eff
    simp_all [State.SameControl]
  · simp [h, State.SameControl]
  · simp [h, State.SameControl]

/-! ### Values that fit -/

/-- A value in [0, 2^31) written as a word reads back as itself (40_command_model.md R126). -/
theorem sint32_word32 {v : Int} (h0 : 0 ≤ v) (h1 : v < 2 ^ 31) : sint32 (word32 v) = v := by
  rw [sint32, word32, BitVec.toInt_ofInt]
  exact Int.bmod_eq_of_le (by omega) (by omega)

theorem msb_word32 {v : Int} (h0 : 0 ≤ v) (h1 : v < 2 ^ 31) : (word32 v).msb = false := by
  have := sint32_word32 h0 h1
  rw [BitVec.msb_eq_toInt]
  simp only [sint32] at this
  rw [this]
  simpa using h0

end Sys2Proof.Machine
end

