-- ==== Sys2Proof/Laws/Bus.lean ====
section
/-! SUPPORT. The address map (10_state.md R22) and everything a host transaction can do (20_memory.md R63 to R66). -/

namespace Sys2Proof.Machine

/-! ### The address map -/

theorem apertureSize_ge (nmax nslot : Nat) : 0x1000 ≤ apertureSize nmax nslot := by
  unfold apertureSize
  omega

theorem apertureSize_mod_four (nmax nslot : Nat) : apertureSize nmax nslot % 4 = 0 := by
  unfold apertureSize
  rw [mul_assoc, mul_assoc]
  omega

theorem accessOk_low {p : Params} {off : Nat} (h4 : off % 4 = 0) (h : off < 0x1000) : accessOk p off 4 = true := by
  have := apertureSize_ge p.nmax p.nslot
  simp [accessOk, h4]
  omega

theorem accessOk_entry {p : Params} {k i j : Nat} (hk : k < p.nslot) (hi : i < p.nmax) (hj : j < p.nmax) :
    accessOk p (entryAddr p.nmax k i j) 4 = true := by
  have h := entryAddr_in_aperture hk hi hj
  simp [accessOk, entryAddr_mod_four]
  omega

theorem registerAt_reserved {off : Nat} (h : 0x028 ≤ off) : registerAt off = .reserved := by
  unfold registerAt
  split <;> first | rfl | omega

theorem registerAt_ne_entry (off a : Nat) : registerAt off ≠ .entry a := by
  unfold registerAt
  split <;> simp

theorem registerAt_ne_shape (off k : Nat) : registerAt off ≠ .shape k := by
  unfold registerAt
  split <;> simp

theorem target_register {p : Params} {off : Nat} (h : off < 0x100) : target p off = registerAt off := by
  rw [target, if_neg (by omega), if_pos h]

theorem target_entry (p : Params) (k i j : Nat) :
    target p (entryAddr p.nmax k i j) = .entry (entryAddr p.nmax k i j) :=
  if_pos (by unfold entryAddr; omega)

theorem target_shape {p : Params} {k : Nat} (hk : k < p.nslot) (hp : p.nslot ≤ 16) :
    target p (0x100 + 4 * k) = .shape k := by
  have hdiv : (0x100 + 4 * k - 0x100) / 4 = k := by omega
  rw [target, if_neg (by omega), if_neg (by omega), if_pos (by omega), hdiv]

theorem target_reserved {p : Params} {off : Nat}
    (h : 0x028 ≤ off ∧ off ≤ 0x0FC ∨ 0x100 + 4 * p.nslot ≤ off ∧ off ≤ 0xFFC) : target p off = .reserved := by
  by_cases hlow : off < 0x100
  · rw [target_register hlow, registerAt_reserved (by omega)]
  · rw [target, if_neg (by omega), if_neg hlow, if_neg (by omega)]

/-- An entry target lies in the entry part of the aperture, at its own offset. -/
theorem target_eq_entry {p : Params} {off a : Nat} (h : target p off = .entry a) : a = off ∧ 0x1000 ≤ off := by
  unfold target at h
  split at h
  · next hge => exact ⟨(Target.entry.inj h).symm, hge⟩
  · split at h
    · exact absurd h (registerAt_ne_entry off a)
    · split at h <;> cases h

/-- A shape target names a slot that exists. -/
theorem target_eq_shape {p : Params} {off k : Nat} (h : target p off = .shape k) : k < p.nslot := by
  unfold target at h
  split at h
  · cases h
  · split at h
    · exact absurd h (registerAt_ne_shape off k)
    · split at h
      · have hdiv : (off - 0x100) / 4 = k := Target.shape.inj h
        omega
      · cases h

/-! ### What a transaction can do -/

/-- A permitted read of a target that takes no fresh word. -/
theorem memRead_eq {s : State} {off : Nat} (hok : accessOk s.params off 4 = true)
    (hd : readDraws s (target s.params off) = false) :
    memRead s off 4 = (.data (readTarget s (target s.params off)), s) := by
  simp [memRead, hok, hd]

/-- A permitted write that is not dropped. -/
theorem memWrite_eq {s : State} {off : Nat} (v : Word) (hok : accessOk s.params off 4 = true)
    (hl : s.busy = false ∨ lockedWhileBusy (target s.params off) = false) :
    memWrite s off 4 v = (.done, writeTarget s v (target s.params off)) := by
  rcases hl with hl | hl <;> simp [memWrite, hok, hl]

/-- A write that is dropped because a command is pending (20_memory.md R66). -/
theorem memWrite_dropped {s : State} {off : Nat} (v : Word) (hok : accessOk s.params off 4 = true)
    (hb : s.busy = true) (hl : lockedWhileBusy (target s.params off) = true) :
    memWrite s off 4 v = (.done, { s with busywr := true }) := by
  simp [memWrite, hok, hb, hl]

/-- A host read changes at most the record of the answer and the count of free values. -/
theorem hostRead_eq (s : State) (addr size : Nat) :
    ∃ r n, hostRead s addr size = { s with resp := some r, draws := n } := by
  unfold hostRead memRead
  split
  · split
    · split
      · exact ⟨_, _, rfl⟩
      · exact ⟨_, s.draws, rfl⟩
    · exact ⟨_, s.draws, rfl⟩
  · exact ⟨_, s.draws, rfl⟩

/-- Everything a host write can do, apart from recording the answer: nothing; setting `BUSYWR`, while a command is pending; or
the write of a target that is not locked, at an aligned offset inside the aperture. -/
theorem hostWrite_cases (s : State) (addr size : Nat) (v : Word) :
    ∃ r, hostWrite s addr size v = { s with resp := some r } ∨
      (s.busy = true ∧ hostWrite s addr size v = { s with busywr := true, resp := some r }) ∨
      (∃ off, off % 4 = 0 ∧ off < apertureSize s.params.nmax s.params.nslot ∧
        (s.busy = false ∨ lockedWhileBusy (target s.params off) = false) ∧
        hostWrite s addr size v = { writeTarget s v (target s.params off) with resp := some r }) := by
  unfold hostWrite memWrite
  split
  · split
    · next hok =>
      simp only [accessOk, Bool.and_eq_true, decide_eq_true_eq] at hok
      split
      · next hb =>
        simp only [Bool.and_eq_true] at hb
        exact ⟨_, .inr (.inl ⟨hb.1, rfl⟩)⟩
      · next hb =>
        simp only [Bool.and_eq_true, not_and_or, Bool.not_eq_true] at hb
        exact ⟨_, .inr (.inr ⟨_, hok.1.2, hok.2, hb, rfl⟩)⟩
    · exact ⟨_, .inl rfl⟩
  · exact ⟨_, .inl rfl⟩

end Sys2Proof.Machine
end

