-- ==== Sys2Proof/Laws/Exec.lean ====
section
/-! SUPPORT. What each command's `Exec` answers: one definition that names the outcome of a command, and one lemma per command
that says everything a success means. -/

namespace Sys2Proof.Machine

/-- The outcome of a command's `Exec` (40_command_model.md R122). -/
def resultOf (i : Instr) (s : State) : CmdResult :=
  match i with
  | .sinv => sinvResult s
  | .sgcd => sgcdResult s
  | .det a => detResult a s
  | .adj a dst => adjResult a dst s
  | .inv a dst => invResult a dst s
  | .solveLin a b dst => solveLinResult a b dst s
  | .solveAff a b c d dst dst2 => solveAffResult a b c d dst dst2 s

/-- Every command answers the next state its completion gives (40_command_model.md R125, R140). -/
theorem exec_eq (i : Instr) (s : State) : exec i s = .next (complete s (resultOf i s)) := by
  cases i <;> rfl

theorem exec_next {i : Instr} {s t : State} (h : exec i s = .next t) : t = complete s (resultOf i s) := by
  rw [exec_eq] at h
  exact (Host.Outcome.next.inj h).symm

/-! ### Checks on operands that are read -/

theorem checkSquare_eq_ok {A : Operand} {u : Unit} (h : checkSquare A = .ok u) : A.rows = A.cols := by
  simpa using require_eq_ok h

theorem checkDim_eq_ok {n : Nat} {B : Operand} {arg : ErrArg} {u : Unit} (h : checkDim n B arg = .ok u) :
    B.rows = n ∧ B.cols = n := by
  simpa using require_eq_ok h

theorem checkUnit_eq_ok {m n : Nat} {M : Mat} {arg : ErrArg} {u : Unit} (h : checkUnit m n M arg = .ok u) :
    gcdMod m (detMod m n M) = 1 := by
  simpa using require_eq_ok h

theorem checkUnit_ok {m n : Nat} {M : Mat} (arg : ErrArg) (h : gcdMod m (detMod m n M) = 1) :
    checkUnit m n M arg = .ok () := by
  simp [checkUnit, h]

theorem checkUnit_bad {m n : Nat} {M : Mat} (arg : ErrArg) (h : gcdMod m (detMod m n M) ≠ 1) :
    checkUnit m n M arg = .error (.err .singular arg) := by
  simp [checkUnit, h]

/-- The gcd test on a read matrix is the gcd test on the integer matrix it reads. -/
theorem gcdMod_detMod_of_eqMod {m n : Nat} {X : Mat} {A : Matrix (Fin n) (Fin n) ℤ}
    (h : EqMod m (matrixOf n n X) A) : gcdMod m (detMod m n X) = Int.gcd A.det m := by
  rw [detMod_eq, h.det, gcdMod_emod, gcdMod]

/-! ### What a success means -/

theorem sinvResult_eq_ok {s : State} {eff : List ResultWrite} (h : sinvResult s = .ok eff) :
    s.ModulusLegal ∧ gcdMod (uint32 s.mod) (scalarOperand s (uint32 s.mod)) = 1 ∧
      eff = [.scalarR (invMod (uint32 s.mod) (scalarOperand s (uint32 s.mod)))] := by
  obtain ⟨m, h1, h⟩ := bind_eq_ok h
  obtain ⟨_, _, hm, rfl, _⟩ := commonPrefix_eq_ok h1
  obtain ⟨_, h2, h⟩ := bind_eq_ok h
  exact ⟨hm, by simpa using require_eq_ok h2, (Except.ok.inj h).symm⟩

theorem sgcdResult_eq_ok {s : State} {eff : List ResultWrite} (h : sgcdResult s = .ok eff) :
    s.ModulusLegal ∧ eff = [.scalarR (gcdMod (uint32 s.mod) (scalarOperand s (uint32 s.mod)))] := by
  obtain ⟨m, h1, h⟩ := bind_eq_ok h
  obtain ⟨_, _, hm, rfl, _⟩ := commonPrefix_eq_ok h1
  exact ⟨hm, (Except.ok.inj h).symm⟩

theorem detResult_eq_ok {a : SlotIdx} {s : State} {eff : List ResultWrite} (h : detResult a s = .ok eff) :
    s.ModulusLegal ∧ a < s.params.nslot ∧ s.ShapeLegal a ∧
      (shapeAt s a).rows = (shapeAt s a).cols ∧
      ∃ X, readOperand s (uint32 s.mod) a = .ok X ∧ eff = [.detR (detMod (uint32 s.mod) X.rows X.entries)] := by
  obtain ⟨m, h1, h⟩ := bind_eq_ok h
  obtain ⟨hk, _, hm, rfl, hsh⟩ := commonPrefix_eq_ok h1
  obtain ⟨X, h2, h⟩ := bind_eq_ok h
  obtain ⟨_, h3, h⟩ := bind_eq_ok h
  have hsq := checkSquare_eq_ok h3
  rw [(readOperand_eq_ok h2).2] at hsq
  exact ⟨hm, hk (a, .a) (by simp), legalShape_iff.mp (hsh (a, .a) (by simp)), BitVec.eq_of_toNat_eq hsq, X, h2,
    (Except.ok.inj h).symm⟩

/-- What the success of a command that stores one `n × n` matrix in `dst` means. -/
structure StoresSquare (s : State) (a dst : SlotIdx) (eff : List ResultWrite) : Prop where
  legal : s.ModulusLegal
  dstExists : dst < s.params.nslot
  shape : s.ShapeLegal a
  effect : ∃ M, eff = [.slot dst (shapeAt s a).rows.toNat (shapeAt s a).rows.toNat M]

theorem adjResult_eq_ok {a dst : SlotIdx} {s : State} {eff : List ResultWrite} (h : adjResult a dst s = .ok eff) :
    StoresSquare s a dst eff := by
  obtain ⟨m, h1, h⟩ := bind_eq_ok h
  obtain ⟨hk, _, hm, rfl, hsh⟩ := commonPrefix_eq_ok h1
  obtain ⟨X, h2, h⟩ := bind_eq_ok h
  obtain ⟨_, h3, h⟩ := bind_eq_ok h
  rw [(readOperand_eq_ok h2).2] at h
  exact ⟨hm, hk (dst, .dst) (by simp), legalShape_iff.mp (hsh (a, .a) (by simp)), _, (Except.ok.inj h).symm⟩

theorem invResult_eq_ok {a dst : SlotIdx} {s : State} {eff : List ResultWrite} (h : invResult a dst s = .ok eff) :
    StoresSquare s a dst eff := by
  obtain ⟨m, h1, h⟩ := bind_eq_ok h
  obtain ⟨hk, _, hm, rfl, hsh⟩ := commonPrefix_eq_ok h1
  obtain ⟨X, h2, h⟩ := bind_eq_ok h
  obtain ⟨_, h3, h⟩ := bind_eq_ok h
  obtain ⟨_, h4, h⟩ := bind_eq_ok h
  rw [(readOperand_eq_ok h2).2] at h
  exact ⟨hm, hk (dst, .dst) (by simp), legalShape_iff.mp (hsh (a, .a) (by simp)), _, (Except.ok.inj h).symm⟩

theorem solveLinResult_eq_ok {a b dst : SlotIdx} {s : State} {eff : List ResultWrite}
    (h : solveLinResult a b dst s = .ok eff) : StoresSquare s a dst eff := by
  obtain ⟨m, h1, h⟩ := bind_eq_ok h
  obtain ⟨hk, _, hm, rfl, hsh⟩ := commonPrefix_eq_ok h1
  obtain ⟨X, h2, h⟩ := bind_eq_ok h
  obtain ⟨Y, h3, h⟩ := bind_eq_ok h
  obtain ⟨_, h4, h⟩ := bind_eq_ok h
  obtain ⟨_, h5, h⟩ := bind_eq_ok h
  obtain ⟨_, h6, h⟩ := bind_eq_ok h
  obtain ⟨_, h7, h⟩ := bind_eq_ok h
  rw [(readOperand_eq_ok h2).2] at h
  exact ⟨hm, hk (dst, .dst) (by simp), legalShape_iff.mp (hsh (a, .a) (by simp)), _, (Except.ok.inj h).symm⟩

theorem solveAffResult_eq_ok {a b c d dst dst2 : SlotIdx} {s : State} {eff : List ResultWrite}
    (h : solveAffResult a b c d dst dst2 s = .ok eff) :
    s.ModulusLegal ∧ dst < s.params.nslot ∧ dst2 < s.params.nslot ∧ dst ≠ dst2 ∧ s.ShapeLegal a ∧
      ∃ L v, eff = [.slot dst (shapeAt s a).rows.toNat (shapeAt s a).rows.toNat L,
        .slot dst2 1 (shapeAt s a).rows.toNat v] := by
  obtain ⟨m, h1, h⟩ := bind_eq_ok h
  obtain ⟨hk, hne, hm, rfl, hsh⟩ := commonPrefix_eq_ok h1
  obtain ⟨A, h2, h⟩ := bind_eq_ok h
  obtain ⟨B, -, h⟩ := bind_eq_ok h
  obtain ⟨C, -, h⟩ := bind_eq_ok h
  obtain ⟨D, -, h⟩ := bind_eq_ok h
  obtain ⟨_, -, h⟩ := bind_eq_ok h
  obtain ⟨_, -, h⟩ := bind_eq_ok h
  obtain ⟨_, -, h⟩ := bind_eq_ok h
  obtain ⟨_, -, h⟩ := bind_eq_ok h
  obtain ⟨_, -, h⟩ := bind_eq_ok h
  obtain ⟨_, -, h⟩ := bind_eq_ok h
  rw [(readOperand_eq_ok h2).2] at h
  exact ⟨hm, hk (dst, .dst) (by simp), hk (dst2, .dst2) (by simp), by simpa using hne,
    legalShape_iff.mp (hsh (a, .a) (by simp)), _, _, (Except.ok.inj h).symm⟩

/-! ### The outcome on slots that hold matrices -/

theorem scalarOperand_range {s : State} (h : s.ModulusLegal) :
    0 ≤ scalarOperand s (uint32 s.mod) ∧ scalarOperand s (uint32 s.mod) < uint32 s.mod :=
  ⟨Int.emod_nonneg _ (by have := h.1; omega), Int.emod_lt_of_pos _ (by have := h.1; omega)⟩

theorem gcdMod_scalarOperand (s : State) (m : Nat) : gcdMod m (scalarOperand s m) = Int.gcd (sint32 s.scalarA) m :=
  gcdMod_emod m _

theorem detResult_of_holds {s : State} {a n : Nat} {A : Matrix (Fin n) (Fin n) ℤ} (hm : s.ModulusLegal)
    (hA : s.SlotHolds a n n A) :
    ∃ X, EqMod (uint32 s.mod) (matrixOf n n X) A ∧ detResult a s = .ok [.detR (detMod (uint32 s.mod) n X)] := by
  obtain ⟨X, hX, hmat⟩ := readOperand_of_holds (uint32 s.mod) hA
  refine ⟨X, eqMod_of_read hmat, ?_⟩
  rw [detResult, commonPrefix_ok (by simpa using hA.1) rfl hm (by simpa using legalShape_of_holds hA)]
  simp [hX, checkSquare]

theorem adjResult_of_holds {s : State} {a dst n : Nat} {A : Matrix (Fin n) (Fin n) ℤ} (hm : s.ModulusLegal)
    (hA : s.SlotHolds a n n A) (hd : dst < s.params.nslot) :
    ∃ X, EqMod (uint32 s.mod) (matrixOf n n X) A ∧
      adjResult a dst s = .ok [.slot dst n n (adjMod (uint32 s.mod) n X)] := by
  obtain ⟨X, hX, hmat⟩ := readOperand_of_holds (uint32 s.mod) hA
  refine ⟨X, eqMod_of_read hmat, ?_⟩
  rw [adjResult, commonPrefix_ok (by simpa using ⟨hA.1, hd⟩) rfl hm (by simpa using legalShape_of_holds hA)]
  simp [hX, checkSquare]

/-- INV on a square source: its singularity check, and what it stores when that passes. -/
theorem invResult_of_holds {s : State} {a dst n : Nat} {A : Matrix (Fin n) (Fin n) ℤ} (hm : s.ModulusLegal)
    (hA : s.SlotHolds a n n A) (hd : dst < s.params.nslot) :
    ∃ X, EqMod (uint32 s.mod) (matrixOf n n X) A ∧
      invResult a dst s = (do
        checkUnit (uint32 s.mod) n X .a
        .ok [.slot dst n n (inverseMod (uint32 s.mod) n X)]) := by
  obtain ⟨X, hX, hmat⟩ := readOperand_of_holds (uint32 s.mod) hA
  refine ⟨X, eqMod_of_read hmat, ?_⟩
  rw [invResult, commonPrefix_ok (by simpa using ⟨hA.1, hd⟩) rfl hm (by simpa using legalShape_of_holds hA)]
  simp [hX, checkSquare]

/-- SOLVE_LIN on two `n × n` sources: its singularity checks, and what it stores when they pass. -/
theorem solveLinResult_of_holds {s : State} {a b dst n : Nat} {A B : Matrix (Fin n) (Fin n) ℤ} (hm : s.ModulusLegal)
    (hA : s.SlotHolds a n n A) (hB : s.SlotHolds b n n B) (hd : dst < s.params.nslot) :
    ∃ X Y, EqMod (uint32 s.mod) (matrixOf n n X) A ∧ EqMod (uint32 s.mod) (matrixOf n n Y) B ∧
      solveLinResult a b dst s = (do
        checkUnit (uint32 s.mod) n X .a
        checkUnit (uint32 s.mod) n (mulMod (uint32 s.mod) n (inverseMod (uint32 s.mod) n X) Y) .dst
        .ok [.slot dst n n (mulMod (uint32 s.mod) n (inverseMod (uint32 s.mod) n X) Y)]) := by
  obtain ⟨X, hX, hmX⟩ := readOperand_of_holds (uint32 s.mod) hA
  obtain ⟨Y, hY, hmY⟩ := readOperand_of_holds (uint32 s.mod) hB
  refine ⟨X, Y, eqMod_of_read hmX, eqMod_of_read hmY, ?_⟩
  rw [solveLinResult, commonPrefix_ok (by simpa using ⟨hA.1, hB.1, hd⟩) rfl hm
    (by simpa using ⟨legalShape_of_holds hA, legalShape_of_holds hB⟩)]
  simp [hX, hY, checkSquare, checkDim]

/-- SOLVE_AFF on four `n × n` sources: its singularity checks, and what it stores when they pass. -/
theorem solveAffResult_of_holds {s : State} {a b c d dst dst2 n : Nat} {A B C D : Matrix (Fin n) (Fin n) ℤ}
    (hm : s.ModulusLegal) (hA : s.SlotHolds a n n A) (hB : s.SlotHolds b n n B) (hC : s.SlotHolds c n n C)
    (hD : s.SlotHolds d n n D) (hd : dst < s.params.nslot) (hd2 : dst2 < s.params.nslot) (hne : dst ≠ dst2) :
    ∃ W X Y Z, EqMod (uint32 s.mod) (matrixOf n n W) A ∧ EqMod (uint32 s.mod) (matrixOf n n X) B ∧
      EqMod (uint32 s.mod) (matrixOf n n Y) C ∧ EqMod (uint32 s.mod) (matrixOf n n Z) D ∧
      solveAffResult a b c d dst dst2 s = (do
        checkUnit (uint32 s.mod) n (subMod (uint32 s.mod) n W X) .a
        checkUnit (uint32 s.mod) n (mulMod (uint32 s.mod) n
          (inverseMod (uint32 s.mod) n (subMod (uint32 s.mod) n W X)) (subMod (uint32 s.mod) n Y Z)) .dst
        .ok [.slot dst n n (mulMod (uint32 s.mod) n
            (inverseMod (uint32 s.mod) n (subMod (uint32 s.mod) n W X)) (subMod (uint32 s.mod) n Y Z)),
          .slot dst2 1 n (subMod (uint32 s.mod) n Y (mulMod (uint32 s.mod) n W (mulMod (uint32 s.mod) n
            (inverseMod (uint32 s.mod) n (subMod (uint32 s.mod) n W X)) (subMod (uint32 s.mod) n Y Z))))]) := by
  obtain ⟨W, hW, hmW⟩ := readOperand_of_holds (uint32 s.mod) hA
  obtain ⟨X, hX, hmX⟩ := readOperand_of_holds (uint32 s.mod) hB
  obtain ⟨Y, hY, hmY⟩ := readOperand_of_holds (uint32 s.mod) hC
  obtain ⟨Z, hZ, hmZ⟩ := readOperand_of_holds (uint32 s.mod) hD
  refine ⟨W, X, Y, Z, eqMod_of_read hmW, eqMod_of_read hmX, eqMod_of_read hmY, eqMod_of_read hmZ, ?_⟩
  rw [solveAffResult, commonPrefix_ok (by simpa using ⟨hA.1, hB.1, hC.1, hD.1, hd, hd2⟩) (by simpa using hne) hm
    (by simpa using ⟨legalShape_of_holds hA, legalShape_of_holds hB, legalShape_of_holds hC, legalShape_of_holds hD⟩)]
  simp [hW, hX, hY, hZ, checkSquare, checkDim]

/-! ### What a stored matrix reads as -/

/-- A slot written with a matrix whose entries lie in [0, 2^31) holds that matrix (40_command_model.md R126). -/
theorem slotWritten_of_write {s : State} {k r c : Nat} {M : Mat} {B : Matrix (Fin r) (Fin c) ℤ}
    (hk : k < s.shapes.length) (hr : r < 256) (hc : c < 256) (hcn : c ≤ s.params.nmax) (hM : matrixOf r c M = B)
    (hB : ∀ i j, 0 ≤ B i j ∧ B i j < 2 ^ 31) :
    (applyWrite s (.slot k r c M)).SlotWritten k r c B := by
  refine ⟨?_, ?_, fun i j => ?_⟩
  · rw [applyWrite_slot, shapeAt_writeBlock, shapeAt_setShape_same _ hk]
    simp [Nat.mod_eq_of_lt hr]
  · rw [applyWrite_slot, shapeAt_writeBlock, shapeAt_setShape_same _ hk]
    simp [Nat.mod_eq_of_lt hc]
  · rw [applyWrite_slot, entryAt_writeBlock M (by simpa using hcn) i.isLt j.isLt]
    have hv : entry M i j = B i j := by rw [← hM, matrixOf_apply]
    rw [hv, Option.map_some, sint32_word32 (hB i j).1 (hB i j).2]

/-- Writing another slot leaves a written slot as it was. -/
theorem slotWritten_of_write_other {s : State} {k k' r c r' c' : Nat} {M : Mat} {B : Matrix (Fin r) (Fin c) ℤ}
    (hne : k ≠ k') (hr : r ≤ s.params.nmax) (hc : c ≤ s.params.nmax) (hr' : r' ≤ s.params.nmax)
    (hc' : c' ≤ s.params.nmax) (h : s.SlotWritten k r c B) : (applyWrite s (.slot k' r' c' M)).SlotWritten k r c B := by
  obtain ⟨h1, h2, h3⟩ := h
  refine ⟨?_, ?_, fun i j => ?_⟩
  · rw [applyWrite_slot, shapeAt_writeBlock, shapeAt_setShape_other _ hne]
    exact h1
  · rw [applyWrite_slot, shapeAt_writeBlock, shapeAt_setShape_other _ hne]
    exact h2
  · rw [applyWrite_slot, entryAt_writeBlock_other M hne (by simpa using hr') (by simpa using hc')
      (by have := i.isLt; simp; omega) (by have := j.isLt; simp; omega), entryAt_setShape]
    exact h3 i j

theorem emod_range {m : Nat} (hm : 1 ≤ m) (hm' : m ≤ 2 ^ 31 - 1) (x : Int) : 0 ≤ x % m ∧ x % m < m ∧ x % m < 2 ^ 31 := by
  have h1 := Int.emod_nonneg x (show (m : Int) ≠ 0 by omega)
  have h2 := Int.emod_lt_of_pos x (show (0 : Int) < m by omega)
  exact ⟨h1, h2, by omega⟩

end Sys2Proof.Machine
end

