-- ==== Sys2Proof/Laws/Flags.lean ====
section
/-! SUPPORT. Words built from fields, as numbers, and the fields of a command word. -/

namespace Sys2Proof.Machine

/-- Concatenation as arithmetic: `{x, y}` (00_scope.md R7). -/
theorem toNat_append_eq {n m : Nat} (x : BitVec n) (y : BitVec m) :
    (x ++ y).toNat = x.toNat * 2 ^ m + y.toNat := by
  rw [BitVec.toNat_append, ← Nat.shiftLeft_add_eq_or_of_lt y.isLt, Nat.shiftLeft_eq]

theorem bit_toNat (b : Bool) : (bit b).toNat = b.toNat := by
  cases b <;> rfl

/-- A word is the word of its number. -/
theorem eq_ofNat_of_toNat {w : Word} {n : Nat} (h : w.toNat = n) : w = BitVec.ofNat 32 n := by
  rw [← h, BitVec.ofNat_toNat, BitVec.setWidth_eq]

/-- `R[STATUS]` as a number (10_state.md R29). -/
theorem statusWord_toNat (s : State) :
    (statusWord s).toNat = s.lastOp.toNat * 2 ^ 16 + s.errCode.toNat * 2 ^ 8 + s.errArg.toNat * 2 ^ 4 +
      s.busywr.toNat * 8 + s.err.toNat * 4 + s.done.toNat * 2 + s.busy.toNat := by
  simp only [statusWord, toNat_append_eq, bit_toNat, BitVec.toNat_ofNat]
  omega

/-- `R[IRQ_EN]` as a number (10_state.md R27). -/
theorem irqEnWord_toNat (s : State) : (irqEnWord s).toNat = s.errIe.toNat * 2 + s.doneIe.toNat := by
  simp only [irqEnWord, toNat_append_eq, bit_toNat, BitVec.toNat_ofNat]
  omega

/-- A `SHAPE` register as a number (10_state.md R42). -/
theorem shapeWord_toNat (sh : Shape) : (shapeWord sh).toNat = sh.cols.toNat * 2 ^ 8 + sh.rows.toNat := by
  simp only [shapeWord, toNat_append_eq, BitVec.toNat_ofNat]
  omega

/-- `R[PARAMS]` as a number (10_state.md R25). -/
theorem paramsWord_toNat {p : Params} (h : p.Legal) :
    (paramsWord p).toNat = 0x00010000 + p.nslot * 256 + p.nmax := by
  obtain ⟨_, h2, _, h4⟩ := h
  simp only [paramsWord, toNat_append_eq, BitVec.toNat_ofNat]
  omega

/-! ### Command words -/

/-- A command word as a number (30_encoding.md R90). -/
theorem cmdWord_toNat (op : Byte) (a b c d e f : Nat) :
    (cmdWord op a b c d e f).toNat = op.toNat + a % 16 * 2 ^ 8 + b % 16 * 2 ^ 12 + c % 16 * 2 ^ 16 + d % 16 * 2 ^ 20 +
      e % 16 * 2 ^ 24 + f % 16 * 2 ^ 28 := by
  simp only [cmdWord, toNat_append_eq, BitVec.toNat_ofNat]
  omega

theorem opField_toNat (w : Word) : (opField w).toNat = w.toNat % 256 := by
  simp [opField]

theorem nibble_eq (w : Word) (lo : Nat) : nibble w lo = w.toNat / 2 ^ lo % 16 := by
  simp [nibble, Nat.shiftRight_eq_div_pow]

theorem nibble_lt (w : Word) (lo : Nat) : nibble w lo < 16 := (w.extractLsb' lo 4).isLt

@[simp] theorem opField_cmdWord (op : Byte) (a b c d e f : Nat) : opField (cmdWord op a b c d e f) = op := by
  apply BitVec.eq_of_toNat_eq
  have := op.isLt
  rw [opField_toNat, cmdWord_toNat]
  omega

/-- The slot fields of a command word (30_encoding.md R90, R92). -/
theorem nibbles_cmdWord (op : Byte) (a b c d e f : Nat) :
    nibble (cmdWord op a b c d e f) 8 = a % 16 ∧ nibble (cmdWord op a b c d e f) 12 = b % 16 ∧
    nibble (cmdWord op a b c d e f) 16 = c % 16 ∧ nibble (cmdWord op a b c d e f) 20 = d % 16 ∧
    nibble (cmdWord op a b c d e f) 24 = e % 16 ∧ nibble (cmdWord op a b c d e f) 28 = f % 16 := by
  have := op.isLt
  simp only [nibble_eq, cmdWord_toNat]
  refine ⟨?_, ?_, ?_, ?_, ?_, ?_⟩ <;> omega

end Sys2Proof.Machine
end

