-- ==== Sys2Proof/Laws/Invariant.lean ====
section
/-! SUPPORT. What keeps the entry storage in its canonical form, inside the aperture and in whole words, and the bounds of the
error fields. -/

namespace Sys2Proof.Machine

/-- The storage after reset is canonical. -/
theorem reset_mem_wf : State.reset.mem.wf := List.Pairwise.nil

/-- Writing words at aligned entry offsets keeps the entry storage's invariant. -/
theorem memInv_writeWords {s : State} (h : s.MemInv) (cells : List (Nat × Word))
    (hc : ∀ c ∈ cells, c.1 % 4 = 0 ∧ 0x1000 ≤ c.1 ∧ c.1 + 4 ≤ apertureSize s.params.nmax s.params.nslot) :
    ({ s with mem := s.mem.writeWords cells } : State).MemInv := by
  obtain ⟨hwf, hin, hword⟩ := h
  refine ⟨Memory.writeWords_wf hwf, fun x hx => ?_, fun x hx => ?_⟩
  · rcases Memory.mem_writeWords hx with ⟨c, hcm, hl, hu⟩ | hx
    · have := hc c hcm
      exact ⟨by omega, by show x.1 < apertureSize s.params.nmax s.params.nslot; omega⟩
    · exact hin x hx
  · refine Memory.isSome_readWord_writeWords (fun c hcm => (hc c hcm).1) (by omega) ?_
    rcases Memory.mem_writeWords hx with ⟨c, hcm, hl, hu⟩ | hx
    · have := hc c hcm
      exact .inl ⟨c, hcm, by omega⟩
    · exact .inr (hword x hx)

/-- A slot result of legal size keeps the entry storage's invariant (40_command_model.md R126). -/
theorem memInv_applyWrite_slot {s : State} (h : s.MemInv) {k r c : Nat} (M : Mat) (hk : k < s.params.nslot)
    (hr : r ≤ s.params.nmax) (hc : c ≤ s.params.nmax) : (applyWrite s (.slot k r c M)).MemInv := by
  refine memInv_writeWords (s := setShape s k ⟨BitVec.ofNat 8 r, BitVec.ofNat 8 c⟩) h _ fun x hx => ?_
  obtain ⟨i, hi, j, hj, rfl⟩ := mem_blockCells.mp hx
  have hr' : r ≤ (setShape s k ⟨BitVec.ofNat 8 r, BitVec.ofNat 8 c⟩).params.nmax := hr
  have hc' : c ≤ (setShape s k ⟨BitVec.ofNat 8 r, BitVec.ofNat 8 c⟩).params.nmax := hc
  exact ⟨entryAddr_mod_four .., entryAddr_in_aperture hk (by omega) (by omega)⟩

/-- Error codes are 1 to 8 (60_exceptions.md R201). -/
theorem errCodeBits_range (code : ErrCode) : errCodeBits code ≠ 0#8 ∧ (errCodeBits code).toNat ≤ 8 := by
  cases code <;> decide

/-- Operand indicators are 0 to 6 (10_state.md R34). -/
theorem errArgBits_le (arg : ErrArg) : (errArgBits arg).toNat ≤ 6 := by
  cases arg <;> decide

end Sys2Proof.Machine
end

