-- ==== Sys2Proof/Laws/PerInstr.lean ====
section
/-! SUPPORT. Statements about every command, as syntax, by one lemma per constructor. -/

open Sys2Proof Sys2Proof.Machine

/-- The word of a command carries the command's opcode in `OP`, whatever its slot fields hold (30_encoding.md R90, R94, R98). -/
def Sys2Proof.Laws.EncodesOpcode.Statement (i : Instr) : Prop := opField (encode i) = i.opcode

theorem Sys2Proof.Laws.EncodesOpcode.sinv : Sys2Proof.Laws.EncodesOpcode.Statement .sinv :=
  opField_cmdWord ..

theorem Sys2Proof.Laws.EncodesOpcode.sgcd : Sys2Proof.Laws.EncodesOpcode.Statement .sgcd :=
  opField_cmdWord ..

theorem Sys2Proof.Laws.EncodesOpcode.det (a : SlotIdx) : Sys2Proof.Laws.EncodesOpcode.Statement (.det a) :=
  opField_cmdWord ..

theorem Sys2Proof.Laws.EncodesOpcode.adj (a dst : SlotIdx) : Sys2Proof.Laws.EncodesOpcode.Statement (.adj a dst) :=
  opField_cmdWord ..

theorem Sys2Proof.Laws.EncodesOpcode.inv (a dst : SlotIdx) : Sys2Proof.Laws.EncodesOpcode.Statement (.inv a dst) :=
  opField_cmdWord ..

theorem Sys2Proof.Laws.EncodesOpcode.solveLin (a b dst : SlotIdx) :
    Sys2Proof.Laws.EncodesOpcode.Statement (.solveLin a b dst) :=
  opField_cmdWord ..

theorem Sys2Proof.Laws.EncodesOpcode.solveAff (a b c d dst dst2 : SlotIdx) :
    Sys2Proof.Laws.EncodesOpcode.Statement (.solveAff a b c d dst dst2) :=
  opField_cmdWord ..
end

