-- ==== Sys2Proof/Laws/Step.lean ====
section
/-! SUPPORT. In which order host writes arrive (20_memory.md R73), and everything a step can do (R70): one inversion lemma, from
which invariants follow. -/

namespace Sys2Proof.Machine

/-- The engine's step: nothing is pending and the state stays, or the pending word's completion. -/
theorem engineStep_cases (s : State) :
    (s.pending = none ∧ engineStep s = .next s) ∨
    (∃ w, s.pending = some w ∧ ∃ res, engineStep s = .next (complete s res) ∧
      ((∃ i, decodeWord w = .ok i ∧ res = resultOf i s) ∨ res = reservedResult)) := by
  unfold engineStep
  cases hp : s.pending with
  | none => exact .inl ⟨rfl, rfl⟩
  | some w =>
    refine .inr ⟨w, rfl, ?_⟩
    dsimp only
    cases hd : decodeWord w with
    | ok i => exact ⟨_, exec_eq i s, .inl ⟨i, rfl, rfl⟩⟩
    | error e => exact ⟨_, rfl, .inr rfl⟩

/-! ### Arrival (20_memory.md R73) -/

/-- In order, or at the place of an event that is no write, the event itself arrives. -/
theorem arrive_head {s : State} {ev : Event} (h : s.params.busInOrder = true ∨ ev.isWrite = false) (rest : List Event) :
    arrive s ev rest = (ev, { s with sched := rest }) := by
  rcases h with h | h <;> simp [arrive, h]

/-- Out of order, a write is exchanged with one behind it or stays, as the next free value says. -/
theorem arrive_write {s : State} {w : Event} (h : s.params.busInOrder = false) (hw : w.isWrite = true) (rest : List Event) :
    arrive s w rest =
      ((exchangeWrite w (Config.freeArrival s.draws) rest).1,
        { s with sched := (exchangeWrite w (Config.freeArrival s.draws) rest).2, draws := s.draws + 1 }) := by
  simp [arrive, h, hw]

/-- Only the schedule and the count of free values move on as an event arrives. -/
theorem arrive_state (s : State) (ev : Event) (rest : List Event) :
    ∃ r n, (arrive s ev rest).2 = { s with sched := r, draws := n } := by
  unfold arrive
  split
  · exact ⟨_, s.draws, rfl⟩
  · exact ⟨_, _, rfl⟩

theorem Event.isWrite_iff {ev : Event} : ev.isWrite = true ↔ ∃ addr size v, ev = .write addr size v := by
  cases ev <;> simp [Event.isWrite]

/-- An exchange leaves a write in front, loses no event, and moves no event but writes. -/
theorem exchangeWrite_spec {w : Event} (hw : w.isWrite = true) (k : Nat) (rest : List Event) :
    (exchangeWrite w k rest).1.isWrite = true ∧
    (w :: rest).Perm ((exchangeWrite w k rest).1 :: (exchangeWrite w k rest).2) ∧
    (exchangeWrite w k rest).2.map Event.place = rest.map Event.place := by
  have keep : ∀ {k rest} (ev : Event), (w :: rest).Perm ((exchangeWrite w k rest).1 :: (exchangeWrite w k rest).2) →
      (w :: ev :: rest).Perm ((exchangeWrite w k rest).1 :: ev :: (exchangeWrite w k rest).2) := fun ev h =>
    (List.Perm.swap ev w _).trans ((h.cons ev).trans (List.Perm.swap _ ev _))
  induction rest generalizing k with
  | nil => exact ⟨hw, .refl _, rfl⟩
  | cons ev rest ih =>
    unfold exchangeWrite
    split
    · next he =>
      cases k with
      | zero => exact ⟨he, .swap ev w rest, by simp [Event.place, hw, he]⟩
      | succ k => exact ⟨(ih k).1, keep ev (ih k).2.1, by simp [(ih k).2.2]⟩
    · exact ⟨(ih k).1, keep ev (ih k).2.1, by simp [(ih k).2.2]⟩

/-! ### The step -/

/-- With an event in front of the schedule that the bus may not move, the step takes it. -/
theorem step_of_sched {s : State} {ev : Event} {rest : List Event} (hs : s.sched = ev :: rest)
    (h : s.params.busInOrder = true ∨ ev.isWrite = false) : step s = takeEvent { s with sched := rest } ev := by
  simp [step, hs, arrive_head h]

/-- Everything one step can be, on the state `u` whose schedule has moved on: a host read, a host write, the engine's step, or
a power-on reset. -/
theorem step_cases {s t : State} (h : step s = .next t) :
    ∃ rest n, ∃ u : State, u = { s with sched := rest, draws := n } ∧
      ((∃ addr size, t = hostRead u addr size) ∨
       (∃ addr size v, t = hostWrite u addr size v) ∨
       engineStep u = .next t ∨
       (s.sched = .powerOn :: rest ∧ t = powerOnReset u)) := by
  unfold step at h
  split at h
  · next hs => exact ⟨[], s.draws, s, by rw [← hs], .inr (.inr (.inl h))⟩
  · next ev rest hs =>
    cases hw : ev.isWrite with
    | true =>
      obtain ⟨r, n, hu⟩ := arrive_state s ev rest
      have hfront : (arrive s ev rest).1.isWrite = true := by
        unfold arrive
        split
        · exact hw
        · exact (exchangeWrite_spec hw _ rest).1
      obtain ⟨addr, size, v, hev⟩ := Event.isWrite_iff.mp hfront
      rw [hev] at h
      exact ⟨r, n, _, hu, .inr (.inl ⟨addr, size, v, (Host.Outcome.next.inj h).symm⟩)⟩
    | false =>
      rw [arrive_head (.inr hw)] at h
      refine ⟨rest, s.draws, _, rfl, ?_⟩
      cases ev with
      | read addr size => exact .inl ⟨addr, size, (Host.Outcome.next.inj h).symm⟩
      | write addr size v => cases hw
      | complete => exact .inr (.inr (.inl h))
      | powerOn => exact .inr (.inr (.inr ⟨hs, (Host.Outcome.next.inj h).symm⟩))

/-- No step faults or refuses. -/
theorem step_next (s : State) : ∃ t, step s = .next t := by
  have heng : ∀ u : State, ∃ t, engineStep u = .next t := fun u => by
    rcases engineStep_cases u with ⟨_, h⟩ | ⟨_, _, res, h, _⟩ <;> exact ⟨_, h⟩
  unfold step
  split
  · exact heng s
  · next ev rest _ => cases (arrive s ev rest).1 <;> first | exact ⟨_, rfl⟩ | exact heng _

end Sys2Proof.Machine
end

