-- ==== Sys2Proof/Tests/Slice0.lean ====
section
/-! SUPPORT. The model's own tests. Expected results are the vectors of 95_test_vectors.md (V-...), or are written out by hand
from the rule a test names. The second half shows, for every statement of Obligations.lean that has hypotheses, a state and
operands that meet them. -/

namespace Sys2Proof.Tests

open Sys2Proof Sys2Proof.Machine

-- One theorem at a time: checked side by side, the kernel evaluations below start more threads than the memory limit allows.
set_option Elab.async false

/-! ### Helpers -/

/-- `s` with matrix `M` of shape `r × c` written to slot `k`. -/
def slot (s : State) (k : SlotIdx) (r c : Nat) (M : Mat) : State :=
  writeBlock (setShape s k ⟨BitVec.ofNat 8 r, BitVec.ofNat 8 c⟩) k r c M

/-- The reset state with a modulus and a scalar operand. -/
def start (m : Nat) (a : Int) : State := { State.reset with mod := BitVec.ofNat 32 m, scalarA := word32 a }

/-- The state an outcome gives; the reset state for a stop. -/
def after : Host.Outcome State Fault Refusal → State
  | .next t => t
  | .fault _ => State.reset
  | .refused _ => State.reset

/-- `s` after the command of word `w` has been accepted and completed. -/
def run (s : State) (w : Word) : State := after (engineStep (accept s w))

/-- The entries of slot `k` inside its shape, as signed integers. -/
def held (s : State) (k : SlotIdx) : List (List (Option Int)) :=
  (List.range (shapeAt s k).rows.toNat).map fun i =>
    (List.range (shapeAt s k).cols.toNat).map fun j => (entryAt s k i j).map sint32

/-! ### Well-formedness: a slot field of 16 fits no command word (30_encoding.md R92) -/

theorem test_wf_det_a : (Instr.det 16).wf = false := by decide
theorem test_wf_adj_a : (Instr.adj 16 0).wf = false := by decide
theorem test_wf_adj_dst : (Instr.adj 0 16).wf = false := by decide
theorem test_wf_inv_a : (Instr.inv 16 0).wf = false := by decide
theorem test_wf_inv_dst : (Instr.inv 0 16).wf = false := by decide
theorem test_wf_solveLin : (Instr.solveLin 16 0 0).wf = false ∧ (Instr.solveLin 0 16 0).wf = false ∧
    (Instr.solveLin 0 0 16).wf = false := by decide
theorem test_wf_solveAff : (Instr.solveAff 16 0 0 0 0 0).wf = false ∧ (Instr.solveAff 0 16 0 0 0 0).wf = false ∧
    (Instr.solveAff 0 0 16 0 0 0).wf = false ∧ (Instr.solveAff 0 0 0 16 0 0).wf = false ∧
    (Instr.solveAff 0 0 0 0 16 0).wf = false ∧ (Instr.solveAff 0 0 0 0 0 16).wf = false := by decide

/-! ### Decoding: words written out bit by bit from the fields of 30_encoding.md R90,
`DST2 DST D C B A OP`, four bits each but for the eight of `OP` -/

theorem test_decode_sinv : decodeWord 0b0000_0000_0000_0000_0000_0000_0000_0001#32 = .ok .sinv := by decide
theorem test_decode_sgcd : decodeWord 0b0000_0000_0000_0000_0000_0000_0000_0010#32 = .ok .sgcd := by decide
theorem test_decode_det : decodeWord 0b0000_0000_0000_0000_0000_1011_0001_0000#32 = .ok (.det 11) := by decide
theorem test_decode_adj : decodeWord 0b0000_0110_0000_0000_0000_1011_0001_0001#32 = .ok (.adj 11 6) := by decide
theorem test_decode_inv : decodeWord 0b0000_0110_0000_0000_0000_1011_0001_0010#32 = .ok (.inv 11 6) := by decide
theorem test_decode_solveLin :
    decodeWord 0b0000_0110_0000_0000_1101_1011_0010_0000#32 = .ok (.solveLin 11 13 6) := by decide
theorem test_decode_solveAff :
    decodeWord 0b1000_0110_0001_1110_1101_1011_0010_0001#32 = .ok (.solveAff 11 13 14 1 6 8) := by decide

/-- The bytes of `SOLVE_AFF` 0x54321021 in bus order, least significant byte first (20_memory.md R61). -/
theorem test_decode_bytes : decodeBytes [0x21#8, 0x10#8, 0x32#8, 0x54#8, 0xAA#8] =
    .ok (.solveAff 0 1 2 3 4 5, [0xAA#8]) := by decide

theorem test_decode_short : decodeBytes [0x01#8, 0x00#8, 0x00#8] = .error .truncated := by decide
theorem test_decode_reserved : decodeWord 0x00000013#32 = .error (.reservedOpcode 0x13#8) := by decide

/-! ### Commands -/

/-- V-SINV-10: the most negative operand. -/
theorem test_sinv_negative : (run (start 7 (-2147483648)) 0x00000001#32).scalarR = 3#32 := by decide +kernel

/-- V-SINV-4: the source's table entry 13:13 is wrong (90_conflicts.md C1). -/
theorem test_sinv_no_inverse : statusWord (run (start 26 13) 0x00000001#32) = 0x00010306#32 := by decide +kernel

/-- V-SGCD-2: gcd(0, m) = m. -/
theorem test_sgcd_zero : (run (start 26 0) 0x00000002#32).scalarR = 26#32 := by decide +kernel

/-- V-SGCD-3. -/
theorem test_sgcd_negative : (run (start 26 (-4)) 0x00000002#32).scalarR = 2#32 := by decide +kernel

/-- V-DET-8: extreme entries. -/
theorem test_det_extreme :
    (run (slot (start 2147483647 0) 3 2 2 [[2147483647, -2147483648], [-2147483648, 2147483647]]) 0x00000310#32).detR =
      2147483646#32 := by decide +kernel

/-- V-DET-15: an entry inside the shape was never written. -/
theorem test_det_unwritten :
    (run (setShape (slot (start 26 0) 3 1 2 [[1, 2]]) 3 ⟨2#8, 2#8⟩) 0x00000310#32).fault = some .uninitOperand ∧
    statusWord (run (setShape (slot (start 26 0) 3 1 2 [[1, 2]]) 3 ⟨2#8, 2#8⟩) 0x00000310#32) = 0x00100002#32 := by
  decide +kernel

/-- V-ADJ-2: the transpose of the cofactor matrix, not the cofactor matrix. -/
theorem test_adj_three :
    held (run (slot (start 26 0) 1 3 3 [[1, 17, 4], [0, 19, 7], [19, 0, 10]]) 0x02000111#32) 2 =
      [[some 8, some 12, some 17], [some 3, some 12, some 19], [some 3, some 11, some 19]] := by decide +kernel

/-- V-ADJ-10: the destination is the source. -/
theorem test_adj_in_place :
    held (run (slot (start 26 0) 1 2 2 [[3, 3], [2, 5]]) 0x01000111#32) 1 =
      [[some 5, some 23], [some 24, some 3]] := by decide +kernel

/-- V-INV-1. -/
theorem test_inv_two :
    held (run (slot (start 26 0) 0 2 2 [[3, 3], [2, 5]]) 0x02000012#32) 2 =
      [[some 15, some 17], [some 20, some 9]] := by decide +kernel

/-- V-INV-5: the determinant 2 is not coprime to 26. -/
theorem test_inv_singular :
    statusWord (run (slot (start 26 0) 0 2 2 [[2, 0], [0, 1]]) 0x02000012#32) = 0x00120216#32 := by decide +kernel

/-- V-LIN-6. -/
theorem test_solveLin_two :
    held (run (slot (slot (start 7 0) 0 2 2 [[1, 2], [3, 4]]) 1 2 2 [[5, 6], [7, 8]]) 0x02001020#32) 2 =
      [[some 4, some 3], [some 4, some 5]] := by decide +kernel

/-- V-LIN-3: the result check. -/
theorem test_solveLin_result_singular :
    statusWord (run (slot (slot (start 26 0) 0 2 2 [[1, 0], [0, 1]]) 1 2 2 [[2, 0], [0, 1]]) 0x02001020#32) =
      0x00200256#32 := by decide +kernel

/-- The operands of V-AFF-5 and V-AFF-14. -/
def affine : State :=
  slot (slot (slot (slot (start 26 0) 0 2 2 [[1, 0], [0, 1]]) 1 2 2 [[0, 0], [0, 0]]) 2 2 2 [[8, 10], [7, 12]])
    3 2 2 [[5, 7], [5, 7]]

/-- V-AFF-5. -/
theorem test_solveAff_two :
    held (run affine 0x54321021#32) 4 = [[some 3, some 3], [some 2, some 5]] ∧
    held (run affine 0x54321021#32) 5 = [[some 5, some 7]] := by decide +kernel

/-- V-AFF-14: the destinations are the first two sources; sources are read first (40_command_model.md R138). -/
theorem test_solveAff_in_place :
    held (run affine 0x10321021#32) 0 = [[some 3, some 3], [some 2, some 5]] ∧
    held (run affine 0x10321021#32) 1 = [[some 5, some 7]] := by decide +kernel

/-- V-AFF-13: the destination rule comes before the modulus. -/
theorem test_solveAff_same_destination :
    statusWord (run { affine with mod := 0#32 } 0x44321021#32) = 0x00210766#32 := by decide +kernel

/-- V-OP-1. -/
theorem test_bad_opcode : statusWord (run State.reset 0x00000000#32) = 0x00000806#32 := by decide +kernel

/-! ### Bus, interrupt and reset -/

/-- V-BUS-8: bits [31:16] of a SHAPE write are ignored. -/
theorem test_shape_write :
    (memRead (memWrite State.reset 0x100 4 0xFFFF0A03#32).2 0x100 4).1 = .data 0x00000A03#32 := by decide +kernel

/-- V-BUS-13: a write while busy is dropped and sets BUSYWR; the command goes on. -/
theorem test_busy_write :
    statusWord (memWrite (accept (start 26 7) 1#32) 0x018 4 5#32).2 = 0x00010009#32 ∧
    statusWord (after (engineStep (memWrite (accept (start 26 7) 1#32) 0x018 4 5#32).2)) = 0x0001000A#32 ∧
    (after (engineStep (memWrite (accept (start 26 7) 1#32) 0x018 4 5#32).2)).scalarR = 15#32 := by decide +kernel

/-- V-BUS-3: a one-byte write is refused and changes nothing. -/
theorem test_byte_write : memWrite (start 26 7) 0x018 1 5#32 = (.busError, start 26 7) := by decide +kernel

/-- V-BUS-21: what an ADJ with a smaller result leaves of an earlier, larger one. -/
theorem test_smaller_result_keeps_the_rest :
    entryAt (run (slot (slot (start 26 0) 2 3 3 [[8, 12, 17], [3, 12, 19], [3, 11, 19]]) 1 2 2 [[3, 3], [2, 5]])
      0x02000111#32) 2 0 2 = some 17#32 := by decide +kernel

/-- 20_memory.md R73 with `BUS_IN_ORDER` false: the write behind the completion arrives first; the completion keeps its place; and
with fewer writes behind it than the number drawn, a write arrives at its own place. -/
theorem test_writes_out_of_order :
    exchangeWrite (.write 0x18 4 7#32) 0 [.complete, .write 0x10 4 1#32] =
      (.write 0x10 4 1#32, [.complete, .write 0x18 4 7#32]) ∧
    exchangeWrite (.write 0x18 4 7#32) 1 [.complete, .write 0x10 4 1#32] =
      (.write 0x18 4 7#32, [.complete, .write 0x10 4 1#32]) := by decide +kernel

/-- V-IRQ-6 and V-IRQ-7: ERR keeps the line up when DONE is cleared. -/
theorem test_irq_error :
    irq (run { start 26 13 with errIe := true } 1#32) = true ∧
    irq (memWrite (run { start 26 13 with errIe := true } 1#32) 0x014 4 2#32).2 = true ∧
    irq (memWrite (run { start 26 13 with errIe := true } 1#32) 0x014 4 4#32).2 = false := by decide +kernel

/-- V-RST-2: from power-on reset, SINV with the modulus still 0. -/
theorem test_reset_sinv :
    statusWord (after (step (State.reset.withFetchWord 32 0x00000001))) = 0x00010506#32 := by decide +kernel

/-- V-RST-5: entries survive a soft reset. -/
theorem test_soft_reset_keeps_entries :
    (run { setShape (memWrite (slot (start 26 0) 0 2 2 [[3, 3], [2, 5]]) 0x008 4 1#32).2 0 ⟨2#8, 2#8⟩ with mod := 26#32 }
      0x00000010#32).detR = 9#32 := by decide +kernel

/-- V-RST-4: a soft reset while busy discards the command; no completion follows. -/
theorem test_soft_reset_aborts :
    after (step (memWrite (accept (start 26 7) 1#32) 0x008 4 1#32).2) = State.reset := by decide +kernel

/-! ### Witnesses: states and operands that meet the hypotheses of the statements -/

/-- The matrices of the witness state. -/
abbrev M0 : Matrix (Fin 2) (Fin 2) ℤ := !![1, 2; 3, 4]
abbrev M1 : Matrix (Fin 2) (Fin 2) ℤ := !![2, 1; 1, 1]
abbrev M2 : Matrix (Fin 2) (Fin 2) ℤ := !![0, 1; 1, 0]
abbrev M3 : Matrix (Fin 2) (Fin 2) ℤ := !![1, 1; 1, 1]
abbrev M4 : Matrix (Fin 1) (Fin 2) ℤ := !![5, -6]
abbrev M5 : Matrix (Fin 1) (Fin 1) ℤ := !![3]

/-- Modulus 7 and scalar -3; slots 0 to 3 hold `M0` to `M3` (`M3` singular), slot 4 is not square, slot 5 is 1 × 1, slot 6 has
unwritten entries inside its shape, slot 7 has the reset shape. -/
def bench : State :=
  setShape (slot (slot (slot (slot (slot (slot (start 7 (-3)) 0 2 2 [[1, 2], [3, 4]]) 1 2 2 [[2, 1], [1, 1]])
    2 2 2 [[0, 1], [1, 0]]) 3 2 2 [[1, 1], [1, 1]]) 4 1 2 [[5, -6]]) 5 1 1 [[3]]) 6 ⟨2#8, 8#8⟩

theorem test_setShape_inv {s : State} (h : s.Inv) (k : SlotIdx) (sh : Shape) : (setShape s k sh).Inv := by
  obtain ⟨hp, hb, hP, hl, he, ha, hlen, hrest⟩ := h
  exact ⟨hp, hb, hP, hl, he, ha, by simpa using hlen, hrest⟩

theorem test_slot_inv {s : State} (h : s.Inv) {k r c : Nat} (M : Mat) (hk : k < s.params.nslot)
    (hr : r ≤ s.params.nmax) (hc : c ≤ s.params.nmax) : (slot s k r c M).Inv := by
  obtain ⟨hp, hb, hP, hl, he, ha, hlen, hs, hd, hM⟩ := h
  exact ⟨hp, hb, hP, hl, he, ha, by simpa [slot] using hlen, hs, hd, memInv_applyWrite_slot hM M hk hr hc⟩

theorem test_start_inv : (start 7 (-3)).Inv :=
  ⟨by decide +kernel, by decide +kernel, by simp [State.PendingInv, start, State.reset, State.powerOn],
    by decide +kernel, by decide +kernel, by decide +kernel, by decide +kernel, by decide +kernel, by decide +kernel,
    by decide +kernel⟩

theorem test_bench_inv : bench.Inv := by
  unfold bench
  refine test_setShape_inv (test_slot_inv (test_slot_inv (test_slot_inv (test_slot_inv (test_slot_inv (test_slot_inv
    test_start_inv _ ?_ ?_ ?_) _ ?_ ?_ ?_) _ ?_ ?_ ?_) _ ?_ ?_ ?_) _ ?_ ?_ ?_) _ ?_ ?_ ?_) _ _
  all_goals decide +kernel

theorem test_bench_modulus : bench.ModulusLegal := by decide +kernel
theorem test_bench_slots : bench.SlotHolds 0 2 2 M0 ∧ bench.SlotHolds 1 2 2 M1 ∧ bench.SlotHolds 2 2 2 M2 ∧
    bench.SlotHolds 3 2 2 M3 ∧ bench.SlotHolds 4 1 2 M4 ∧ bench.SlotHolds 5 1 1 M5 := by decide +kernel

/-- A state with a command pending and its completion scheduled. -/
def pendingState (w : Word) (rest : List Event) : State := { accept bench w with sched := rest }

theorem test_accept_inv {s : State} (h : s.Inv) (w : Word) (rest : List Event) :
    ({ accept s w with sched := rest } : State).Inv := by
  obtain ⟨hp, -, -, -, -, -, hrest⟩ := h
  exact ⟨hp, rfl, by simp [State.PendingInv], rfl, by simp, by simp, hrest⟩

theorem test_exec_next (i : Instr) (s : State) : exec i s = .next (after (exec i s)) := by
  rw [exec_eq, after]

theorem test_step_next (s : State) : step s = .next (after (step s)) := by
  obtain ⟨t, h⟩ := step_next s
  rw [h, after]

theorem test_witness_DecodeOfEncodeIsTheCommand : (Instr.solveAff 15 15 15 15 15 15).WellFormed ∧
    Instr.sinv.WellFormed ∧ (Instr.det 0).WellFormed := by decide

/-- The clause at its boundary: every field 15. -/
theorem test_witness_EncodeIsTheAssemblerWord : encode (.solveAff 15 15 15 15 15 15) = 0xFFFFFF21#32 := by decide

theorem test_witness_UnusedFieldsAreIgnored :
    decodeWord 0xFFFFFF01#32 = .ok .sinv ∧ 0x00000001#32 &&& usedMask .sinv = 0xFFFFFF01#32 &&& usedMask .sinv := by decide

theorem test_witness_ReservedOpcodesReportBadOpcode :
    opField 0x00000000#32 ∉ [0x01#8, 0x02#8, 0x10#8, 0x11#8, 0x12#8, 0x20#8, 0x21#8] ∧
    opField 0xFFFFFF22#32 ∉ [0x01#8, 0x02#8, 0x10#8, 0x11#8, 0x12#8, 0x20#8, 0x21#8] ∧
    State.reset.params.Legal ∧ State.reset.busy = false ∧ (accept State.reset 0#32).pending = some 0#32 := by
  decide +kernel

theorem test_witness_StepRunsTheDecodedCommand :
    (pendingState 0x02000111#32 []).pending = some 0x02000111#32 ∧ decodeWord 0x02000111#32 = .ok (.adj 1 2) ∧
    (pendingState 0x02000111#32 []).sched = [] ∧
    (pendingState 0x02000111#32 [.complete, .powerOn]).pending = some 0x02000111#32 ∧
    (pendingState 0x02000111#32 [.complete, .powerOn]).sched = .complete :: [.powerOn] ∧
    (pendingState 0#32 [.complete]).pending = some 0#32 ∧
    opField 0#32 ∉ [0x01#8, 0x02#8, 0x10#8, 0x11#8, 0x12#8, 0x20#8, 0x21#8] ∧
    (pendingState 0#32 []).sched = [] ∧ (pendingState 0#32 [.complete]).sched = .complete :: [] := by decide +kernel

theorem test_witness_StepTakesTheNextEvent :
    ({ bench with sched := [.read 0 4] } : State).sched = .read 0 4 :: [] ∧
    ({ bench with sched := [.write 0x10 4 1#32] } : State).sched = .write 0x10 4 1#32 :: [] ∧
    bench.params.busInOrder = true ∧ ({ bench with sched := [.powerOn] } : State).sched = .powerOn :: [] ∧
    ({ bench with sched := [.complete] } : State).sched = .complete :: [] ∧ bench.pending = none ∧
    bench.sched = [] := by decide +kernel

/-- A bus in order, and one that is not. -/
theorem test_witness_HostWritesArriveInProgramOrder :
    ({ bench with sched := [.read 0 4, .complete] } : State).sched = .read 0 4 :: [.complete] ∧
    bench.params.busInOrder = true ∧
    ({ bench with params := ⟨8, 8, 0, 0, false⟩, sched := [.write 0x18 4 7#32, .write 0x10 4 1#32] } : State).sched =
      .write 0x18 4 7#32 :: [.write 0x10 4 1#32] ∧
    ({ bench with params := ⟨8, 8, 0, 0, false⟩ } : State).params.busInOrder = false := by decide +kernel

theorem test_witness_EveryCommandCompletes : (accept bench 0x02000111#32).pending = some 0x02000111#32 := by decide +kernel

theorem test_witness_PlacedCommandRunsNext : decodeWord (BitVec.ofNat 32 0x02000111) = .ok (.adj 1 2) := by decide

/-- One access for each reason of refusal, the last word of the aperture being the last that is not refused. -/
theorem test_witness_RefusedAccessChangesNothing :
    (memRead bench 0x018 2).1 = .busError ∧ (memRead bench 0x019 4).1 = .busError ∧
    0x1000 + 4 * bench.params.nslot * bench.params.nmax * bench.params.nmax ≤ 0x1800 ∧
    (memRead bench 0x17FC 4).1 ≠ .busError := by decide +kernel

theorem test_witness_AddressBelowBaseIsRefused :
    0xFFF < ({ bench with params := ⟨8, 8, 0x1000, 0, true⟩ } : State).params.base := by decide +kernel

/-- The first address of the aperture. -/
theorem test_witness_HostTransactionReachesItsOffset :
    ({ bench with params := ⟨8, 8, 0x1000, 0, true⟩ } : State).params.base ≤ 0x1000 ∧
    (hostRead ({ bench with params := ⟨8, 8, 0x1000, 0, true⟩ } : State) 0x1000 4).resp = some (.data 0x4D534947#32) := by
  decide +kernel

theorem test_witness_RegisterReads :
    bench.params.Legal ∧ 7 < bench.params.nslot ∧
    (∀ off ∈ [0x028, 0x0FC, 0x120, 0xFFC], off % 4 = 0 ∧
      (0x028 ≤ off ∧ off ≤ 0x0FC ∨ 0x100 + 4 * bench.params.nslot ≤ off ∧ off ≤ 0xFFC)) := by decide +kernel

theorem test_witness_EntryReads :
    5 < bench.params.nslot ∧ 0 < bench.params.nmax ∧ entryAt bench 5 0 0 = some 3#32 ∧
    7 < bench.params.nslot ∧ 7 < bench.params.nmax ∧ entryAt bench 7 7 7 = none := by decide +kernel

theorem test_witness_WriteEffects :
    bench.params.Legal ∧ bench.busy = false ∧ 7 < bench.params.nslot ∧ bench.shapes.length = bench.params.nslot ∧
    7 < bench.params.nmax ∧ (0x0FC % 4 = 0 ∧ 0x028 ≤ 0x0FC ∧ 0x0FC ≤ 0x0FC) ∧
    (0x120 % 4 = 0 ∧ 0x100 + 4 * bench.params.nslot ≤ 0x120 ∧ 0x120 ≤ 0xFFC) := by decide +kernel

theorem test_witness_BusyWrites :
    (accept bench 1#32).params.Legal ∧ (accept bench 1#32).busy = true ∧ 7 < (accept bench 1#32).params.nslot ∧
    7 < (accept bench 1#32).params.nmax ∧ (0xFFC % 4 = 0 ∧
      0x100 + 4 * (accept bench 1#32).params.nslot ≤ 0xFFC ∧ 0xFFC ≤ 0xFFC) := by decide +kernel

theorem test_witness_AcceptStartsTheCommand : bench.params.Legal ∧ bench.busy = false := by decide +kernel

/-- The smallest and the largest block. -/
theorem test_witness_PowerOnValues : (⟨1, 1, 0, 0, true⟩ : Params).Legal ∧ (⟨16, 16, 0, 0, false⟩ : Params).Legal ∧
    0 < (⟨1, 1, 0, 0, true⟩ : Params).nslot := by decide

theorem test_witness_MaskingKeepsInterruptPending : (run bench 1#32).params.Legal ∧ (run bench 1#32).done = true := by
  decide +kernel

theorem test_witness_SoftResetKeepsEntries :
    (accept bench 1#32).params.Legal ∧ (0xFFFFFFFE#32).getLsbD 0 = false ∧ (0x00000001#32).getLsbD 0 = true := by
  decide +kernel

theorem test_witness_InvariantAtReset : (⟨1, 16, 0, 0, false⟩ : Params).Legal ∧ (⟨16, 1, 0, 0, true⟩ : Params).Legal := by decide

/-- ADJ pending in a state that meets the invariant; its step answers a next state. -/
theorem test_witness_StepKeepsTheInvariant :
    (pendingState 0x02000111#32 []).Inv ∧
    step (pendingState 0x02000111#32 []) = .next (after (step (pendingState 0x02000111#32 []))) :=
  ⟨test_accept_inv test_bench_inv _ _, test_step_next _⟩

theorem test_witness_ParametersNeverChange : step bench = .next (after (step bench)) := test_step_next bench

/-- A dropped write to MOD while ADJ is pending. -/
theorem test_witness_PendingCommandKeepsItsOperands :
    (pendingState 0x02000111#32 [.write 0x18 4 5#32]).Inv ∧
    (pendingState 0x02000111#32 [.write 0x18 4 5#32]).pending = some 0x02000111#32 ∧
    step (pendingState 0x02000111#32 [.write 0x18 4 5#32]) =
      .next (after (step (pendingState 0x02000111#32 [.write 0x18 4 5#32]))) ∧
    (after (step (pendingState 0x02000111#32 [.write 0x18 4 5#32]))).pending ≠ none :=
  ⟨test_accept_inv test_bench_inv _ _, by decide +kernel, test_step_next _, by decide +kernel⟩

theorem test_witness_FaultMarkStays :
    (run bench 0x00000610#32).fault = some .uninitOperand ∧ (run bench 0x00000610#32).sched = [] ∧
    step (run bench 0x00000610#32) = .next (after (step (run bench 0x00000610#32))) :=
  ⟨by decide +kernel, by decide +kernel, test_step_next _⟩

theorem test_other_fields_inv {s : State} (h : s.Inv) : ({ s with busywr := true, doneIe := true } : State).Inv := h

theorem test_other_fields_operands (s : State) (k x y : Nat) :
    shapeAt ({ s with busywr := true, doneIe := true } : State) k = shapeAt s k ∧
    entryAt ({ s with busywr := true, doneIe := true } : State) k x y = entryAt s k x y := ⟨rfl, rfl⟩

theorem test_witness_OutcomeDependsOnOperandsOnly :
    bench.Inv ∧ ({ bench with busywr := true, doneIe := true } : State).Inv ∧
    (∀ p ∈ sourceArgs (.solveAff 0 1 2 3 4 5),
      shapeAt ({ bench with busywr := true, doneIe := true } : State) p.1 = shapeAt bench p.1 ∧
      ∀ x < bench.params.nmax, ∀ y < bench.params.nmax,
        entryAt ({ bench with busywr := true, doneIe := true } : State) p.1 x y = entryAt bench p.1 x y) :=
  ⟨test_bench_inv, test_other_fields_inv test_bench_inv, fun p _ =>
    ⟨(test_other_fields_operands bench p.1 0 0).1, fun x _ y _ => (test_other_fields_operands bench p.1 x y).2⟩⟩

theorem test_witness_ErrorsWriteNoResult :
    exec (.inv 3 7) bench = .next (after (exec (.inv 3 7) bench)) ∧ bench.err = false ∧
    (after (exec (.inv 3 7) bench)).err = true := ⟨test_exec_next .., by decide +kernel, by decide +kernel⟩

theorem test_witness_ScalarCommandsFrame :
    exec .sinv bench = .next (after (exec .sinv bench)) ∧ exec .sgcd bench = .next (after (exec .sgcd bench)) :=
  ⟨test_exec_next .., test_exec_next ..⟩

theorem test_witness_DetFrame : exec (.det 0) bench = .next (after (exec (.det 0) bench)) := test_exec_next ..

/-- Each command stores: the entry it is checked at had no value before. -/
theorem test_witness_OneSlotCommandsFrame :
    exec (.adj 0 7) bench = .next (after (exec (.adj 0 7) bench)) ∧
    exec (.inv 0 7) bench = .next (after (exec (.inv 0 7) bench)) ∧
    exec (.solveLin 0 1 7) bench = .next (after (exec (.solveLin 0 1 7) bench)) ∧
    (entryAt (after (exec (.adj 0 7) bench)) 7 1 1).isSome = true ∧
    (entryAt (after (exec (.inv 0 7) bench)) 7 1 1).isSome = true ∧
    (entryAt (after (exec (.solveLin 0 1 7) bench)) 7 1 1).isSome = true :=
  ⟨test_exec_next .., test_exec_next .., test_exec_next .., by decide +kernel⟩

theorem test_witness_SolveAffFrame :
    exec (.solveAff 0 1 2 1 6 7) bench = .next (after (exec (.solveAff 0 1 2 1 6 7) bench)) ∧
    (entryAt (after (exec (.solveAff 0 1 2 1 6 7) bench)) 6 1 1).isSome = true ∧
    (entryAt (after (exec (.solveAff 0 1 2 1 6 7) bench)) 7 0 1).isSome = true :=
  ⟨test_exec_next .., by decide +kernel⟩

/-- The first slot index that does not exist, 8, in the first and the last field; and equal destinations. -/
theorem test_witness_BadSlotNamesTheFirstField :
    (slotArgs (.solveAff 8 9 2 3 4 4)).find? (fun p => decide (bench.params.nslot ≤ p.1)) = some (8, 1#4) ∧
    (slotArgs (.solveAff 0 1 2 3 4 8)).find? (fun p => decide (bench.params.nslot ≤ p.1)) = some (8, 6#4) ∧
    (∀ k ∈ [0, 1, 2, 3, 7], k < bench.params.nslot) := by decide +kernel

theorem test_witness_BadModulusIsReported :
    ({ bench with mod := 0#32 } : State).SlotsPass (.solveAff 0 1 2 3 4 5) ∧
    uint32 ({ bench with mod := 0#32 } : State).mod = 0 ∧
    ({ bench with mod := 0x80000000#32 } : State).SlotsPass .sinv ∧
    2 ^ 31 ≤ uint32 ({ bench with mod := 0x80000000#32 } : State).mod := by decide +kernel

/-- A shape with 0 rows, and one with 9 columns where `NMAX` is 8. -/
theorem test_witness_BadShapeNamesTheFirstSource :
    bench.SlotsPass (.solveLin 0 7 1) ∧ bench.ModulusLegal ∧
    (sourceArgs (.solveLin 0 7 1)).find? (fun p => !decide (bench.ShapeLegal p.1)) = some (7, 2#4) ∧
    (sourceArgs (.det 0)).find? (fun p => !decide ((setShape bench 0 ⟨8#8, 9#8⟩).ShapeLegal p.1)) = some (0, 1#4) := by
  decide +kernel

theorem test_witness_UnwrittenOperandMarksTheRun :
    bench.SlotsPass (.solveLin 0 6 1) ∧ bench.ModulusLegal ∧
    (∀ p ∈ sourceArgs (.solveLin 0 6 1), bench.ShapeLegal p.1) ∧
    (6, 2#4) ∈ sourceArgs (.solveLin 0 6 1) ∧ 1 < (shapeAt bench 6).rows.toNat ∧ 7 < (shapeAt bench 6).cols.toNat ∧
    entryAt bench 6 1 7 = none := by decide +kernel

/-- A block with one slot, `NSLOT` = 1, that holds `M`. -/
def lone (r c : Nat) (M : Mat) : State := slot { State.powerOn ⟨2, 1, 0, 0, true⟩ with mod := 7#32 } 0 r c M

/-- With eight slots for every clause, and with one slot for those before SOLVE_AFF's. -/
theorem test_witness_NotSquareIsReported :
    bench.ModulusLegal ∧ bench.SlotHolds 4 1 2 M4 ∧ (1 ≠ 2) ∧ 0 < bench.params.nslot ∧ 7 < bench.params.nslot ∧
    (0 ≠ 7) ∧ bench.SlotHolds 0 2 2 M0 ∧ bench.SlotHolds 5 1 1 M5 ∧ bench.SlotHolds 4 1 2 M4 ∧
    (lone 1 2 [[5, -6]]).ModulusLegal ∧ (lone 1 2 [[5, -6]]).SlotHolds 0 1 2 M4 ∧
    0 < (lone 1 2 [[5, -6]]).params.nslot := by decide +kernel

/-- `A` is 2 × 2. In turn: `B` is 1 × 1; `B` fits and `C` is 1 × 2; `B` and `C` fit and `D` is 1 × 1. -/
theorem test_witness_DimMismatchIsReported :
    bench.ModulusLegal ∧ bench.SlotHolds 0 2 2 M0 ∧ bench.SlotHolds 5 1 1 M5 ∧ ¬ (1 = 2 ∧ 1 = 2) ∧
    bench.SlotHolds 1 2 2 M1 ∧ bench.SlotHolds 4 1 2 M4 ∧ ¬ (1 = 2 ∧ 2 = 2) ∧ bench.SlotHolds 2 2 2 M2 ∧
    6 < bench.params.nslot ∧ 7 < bench.params.nslot := by decide +kernel

/-- The smallest and the largest legal modulus; a scalar that is not coprime to the modulus; 0 and 2^31 as moduli. -/
theorem test_witness_SinvGivesTheInverse : opField 0xFFFFFF01#32 = 0x01#8 ∧
    ((start 1 5).ModulusLegal ∧ Int.gcd (sint32 (start 1 5).scalarA) (uint32 (start 1 5).mod) = 1) ∧
    ((start 2147483647 2).ModulusLegal ∧
      Int.gcd (sint32 (start 2147483647 2).scalarA) (uint32 (start 2147483647 2).mod) = 1) ∧
    ((start 26 13).ModulusLegal ∧ Int.gcd (sint32 (start 26 13).scalarA) (uint32 (start 26 13).mod) ≠ 1) ∧
    ¬ (start 0 7).ModulusLegal ∧ ¬ (start 2147483648 7).ModulusLegal := by decide +kernel

theorem test_witness_SgcdGivesTheGcd : opField 0xFFFFFF02#32 = 0x02#8 ∧
    (start 1 0).ModulusLegal ∧ (start 2147483647 0).ModulusLegal ∧ ¬ (start 0 7).ModulusLegal ∧
    ¬ (start 2147483648 7).ModulusLegal := by decide +kernel

theorem test_witness_DetGivesTheDeterminant : bench.ModulusLegal ∧ bench.SlotHolds 0 2 2 M0 ∧
    bench.SlotHolds 5 1 1 M5 := by decide +kernel

/-- The destination is the source, and the last slot. -/
theorem test_witness_AdjGivesTheAdjugate : bench.Inv ∧ bench.ModulusLegal ∧ bench.SlotHolds 0 2 2 M0 ∧
    0 < bench.params.nslot ∧ 7 < bench.params.nslot :=
  ⟨test_bench_inv, test_bench_modulus, test_bench_slots.1, by decide +kernel, by decide +kernel⟩

/-- The determinants of the witness matrices: -2, 1 and 0; and those of the differences SOLVE_AFF takes. -/
theorem test_bench_units : Int.gcd M0.det (uint32 bench.mod) = 1 ∧ Int.gcd M1.det (uint32 bench.mod) = 1 ∧
    Int.gcd M3.det (uint32 bench.mod) ≠ 1 ∧ Int.gcd (M0 - M1).det (uint32 bench.mod) = 1 ∧
    Int.gcd (M2 - M1).det (uint32 bench.mod) = 1 ∧ Int.gcd (M2 - M2).det (uint32 bench.mod) ≠ 1 := by
  have h0 : M0.det = -2 := by simp [Matrix.det_fin_two]
  have h1 : M1.det = 1 := by simp [Matrix.det_fin_two]
  have h3 : M3.det = 0 := by simp [Matrix.det_fin_two]
  have h4 : (M0 - M1).det = -5 := by simp [Matrix.det_fin_two]
  have h5 : (M2 - M1).det = 2 := by simp [Matrix.det_fin_two]
  have h6 : (M2 - M2).det = 0 := by simp
  rw [h0, h1, h3, h4, h5, h6]
  decide +kernel

theorem test_witness_InvGivesTheInverse : bench.Inv ∧ bench.ModulusLegal ∧ bench.SlotHolds 0 2 2 M0 ∧
    7 < bench.params.nslot ∧ Int.gcd M0.det (uint32 bench.mod) = 1 :=
  ⟨test_bench_inv, test_bench_modulus, test_bench_slots.1, by decide +kernel, test_bench_units.1⟩

theorem test_witness_AdjugateAndInverseProperties : bench.Inv ∧ bench.ModulusLegal ∧ bench.SlotHolds 1 2 2 M1 ∧
    7 < bench.params.nslot ∧ Int.gcd M1.det (uint32 bench.mod) = 1 :=
  ⟨test_bench_inv, test_bench_modulus, test_bench_slots.2.1, by decide +kernel, test_bench_units.2.1⟩

/-- INV and SOLVE_LIN of the singular `M3`, also on a block with one slot; SOLVE_AFF with `A - B = 0`, `A` and `B` both slot 2. -/
theorem test_witness_SingularCoefficientIsReported : bench.ModulusLegal ∧ bench.SlotHolds 3 2 2 M3 ∧
    bench.SlotHolds 2 2 2 M2 ∧ 6 < bench.params.nslot ∧ 7 < bench.params.nslot ∧ (6 ≠ 7) ∧
    Int.gcd M3.det (uint32 bench.mod) ≠ 1 ∧ Int.gcd (M2 - M2).det (uint32 bench.mod) ≠ 1 ∧
    (lone 2 2 [[1, 1], [1, 1]]).ModulusLegal ∧ (lone 2 2 [[1, 1], [1, 1]]).SlotHolds 0 2 2 M3 ∧
    0 < (lone 2 2 [[1, 1], [1, 1]]).params.nslot ∧ (lone 2 2 [[1, 1], [1, 1]]).mod = bench.mod :=
  ⟨test_bench_modulus, test_bench_slots.2.2.2.1, test_bench_slots.2.2.1, by decide +kernel, by decide +kernel, by decide +kernel,
    test_bench_units.2.2.1, test_bench_units.2.2.2.2.2, by decide +kernel, by decide +kernel, by decide +kernel,
    by decide +kernel⟩

theorem test_witness_SolveLinSolvesTheSystem : bench.Inv ∧ bench.ModulusLegal ∧ bench.SlotHolds 0 2 2 M0 ∧
    bench.SlotHolds 1 2 2 M1 ∧ 7 < bench.params.nslot ∧ Int.gcd M0.det (uint32 bench.mod) = 1 ∧
    Int.gcd M1.det (uint32 bench.mod) = 1 :=
  ⟨test_bench_inv, test_bench_modulus, test_bench_slots.1, test_bench_slots.2.1, by decide +kernel, test_bench_units.1,
    test_bench_units.2.1⟩

/-- Both sides of the equivalence: `Y = M1` passes the result check, `Y = M3` does not. -/
theorem test_witness_SolveLinResultCheckIsOnY : bench.err = false ∧ bench.ModulusLegal ∧ bench.SlotHolds 0 2 2 M0 ∧
    bench.SlotHolds 1 2 2 M1 ∧ bench.SlotHolds 3 2 2 M3 ∧ 7 < bench.params.nslot ∧
    Int.gcd M0.det (uint32 bench.mod) = 1 ∧ Int.gcd M1.det (uint32 bench.mod) = 1 ∧
    Int.gcd M3.det (uint32 bench.mod) ≠ 1 :=
  ⟨by decide +kernel, test_bench_modulus, test_bench_slots.1, test_bench_slots.2.1, test_bench_slots.2.2.2.1, by decide +kernel,
    test_bench_units.1, test_bench_units.2.1, test_bench_units.2.2.1⟩

/-- `X1 = M0`, `X2 = M1`, `Y1 = M2`, `Y2 = M1`. -/
theorem test_witness_SolveAffSolvesTheSystem : bench.Inv ∧ bench.ModulusLegal ∧ bench.SlotHolds 0 2 2 M0 ∧
    bench.SlotHolds 1 2 2 M1 ∧ bench.SlotHolds 2 2 2 M2 ∧ 6 < bench.params.nslot ∧ 7 < bench.params.nslot ∧ (6 ≠ 7) ∧
    Int.gcd (M0 - M1).det (uint32 bench.mod) = 1 ∧ Int.gcd (M2 - M1).det (uint32 bench.mod) = 1 :=
  ⟨test_bench_inv, test_bench_modulus, test_bench_slots.1, test_bench_slots.2.1, test_bench_slots.2.2.1, by decide +kernel,
    by decide +kernel, by decide +kernel, test_bench_units.2.2.2.1, test_bench_units.2.2.2.2.1⟩

/-- `X1 = M0`, `X2 = M1`, and `Y1 = Y2 = M2`. -/
theorem test_witness_SolveAffSingularResultIsReported : bench.ModulusLegal ∧ bench.SlotHolds 0 2 2 M0 ∧
    bench.SlotHolds 1 2 2 M1 ∧ bench.SlotHolds 2 2 2 M2 ∧ 6 < bench.params.nslot ∧ 7 < bench.params.nslot ∧ (6 ≠ 7) ∧
    Int.gcd (M0 - M1).det (uint32 bench.mod) = 1 ∧ Int.gcd (M2 - M2).det (uint32 bench.mod) ≠ 1 :=
  ⟨test_bench_modulus, test_bench_slots.1, test_bench_slots.2.1, test_bench_slots.2.2.1, by decide +kernel, by decide +kernel,
    by decide +kernel, test_bench_units.2.2.2.1, test_bench_units.2.2.2.2.2⟩

theorem test_mod_inv {s : State} (h : s.Inv) : ({ s with mod := 1#32 } : State).Inv := h

theorem test_mod_slot {s : State} {k r c : Nat} {A : Matrix (Fin r) (Fin c) ℤ} (h : s.SlotHolds k r c A) :
    ({ s with mod := 1#32 } : State).SlotHolds k r c A := h

/-- The modulus 1 with a singular matrix; and, for the last clause, NOT_SQUARE with the modulus 1. -/
theorem test_witness_ModulusOneGivesZero :
    ({ bench with mod := 1#32 } : State).Inv ∧ ({ bench with mod := 1#32 } : State).SlotHolds 3 2 2 M3 ∧
    7 < bench.params.nslot ∧ 6 < bench.params.nslot ∧ (7 ≠ 6) ∧ bench.err = false ∧
    (after (exec (.inv 4 7) { bench with mod := 1#32 })).err = true :=
  ⟨test_mod_inv test_bench_inv, test_mod_slot test_bench_slots.2.2.2.1, by decide +kernel, by decide +kernel, by decide +kernel,
    by decide +kernel, by decide +kernel⟩

end Sys2Proof.Tests
end

section
/-! Proofs: no event changes the parameters of the block (00_scope.md R6). -/

namespace Sys2Proof.Machine

/-- No write reaches the parameters: a soft reset keeps them too (20_memory.md R65, 70_reset_and_hazards.md R241). -/
@[simp] theorem writeTarget_params (s : State) (v : Word) (tgt : Target) : (writeTarget s v tgt).params = s.params := by
  cases tgt with
  | ctrl =>
    simp only [writeTarget]
    split
    · exact softReset_params s
    · rfl
  | _ => rfl

@[simp] theorem hostRead_params (s : State) (addr size : Nat) : (hostRead s addr size).params = s.params := by
  obtain ⟨r, n, h⟩ := hostRead_eq s addr size
  rw [h]

@[simp] theorem hostWrite_params (s : State) (addr size : Nat) (v : Word) :
    (hostWrite s addr size v).params = s.params := by
  obtain ⟨r, h | ⟨-, h⟩ | ⟨off, -, -, -, h⟩⟩ := hostWrite_cases s addr size v
  · rw [h]
  · rw [h]
  · rw [h]
    exact writeTarget_params s v _

@[simp] theorem complete_params (s : State) (res : CmdResult) : (complete s res).params = s.params := by
  obtain ⟨⟨hparams, -⟩, -⟩ := complete_frame s res
  exact hparams

theorem engineStep_params {s t : State} (h : engineStep s = .next t) : t.params = s.params := by
  obtain ⟨-, hidle⟩ | ⟨w, -, res, hdone, -⟩ := engineStep_cases s
  · rw [Host.Outcome.next.inj (h.symm.trans hidle)]
  · rw [Host.Outcome.next.inj (h.symm.trans hdone), complete_params]

/-- Settles O24: none of the four things a step can be writes the parameters. -/
theorem parametersNeverChange : Obligations.ParametersNeverChange := by
  intro s t h
  obtain ⟨rest, n, u, rfl, hread | hwrite | hengine | hreset⟩ := step_cases h
  · obtain ⟨addr, size, rfl⟩ := hread
    exact hostRead_params _ addr size
  · obtain ⟨addr, size, v, rfl⟩ := hwrite
    exact hostWrite_params _ addr size v
  · have hparams := engineStep_params hengine
    exact hparams
  · obtain ⟨-, rfl⟩ := hreset
    exact powerOnReset_params _

end Sys2Proof.Machine
end

section
/-! Proofs: the interrupt output (10_state.md R45). -/

namespace Sys2Proof.Machine

theorem irq_eq_true_iff (s : State) :
    irq s = true ↔ (s.done = true ∧ s.doneIe = true) ∨ (s.err = true ∧ s.errIe = true) := by
  simp [irq]

/-- With neither pending bit set the line is low, whatever the enables. -/
theorem irq_eq_false_of_clear {s : State} (hdone : s.done = false) (herr : s.err = false) : irq s = false := by
  simp [irq, hdone, herr]

/-- Settles O18: `IRQ` is the formula of R45, and either reset clears both pending bits. -/
theorem interruptOutput : Obligations.InterruptOutput :=
  ⟨irq_eq_true_iff, fun p => irq_eq_false_of_clear (State.powerOn_done p) (State.powerOn_err p),
    fun s => irq_eq_false_of_clear (softReset_done s) (softReset_err s)⟩

end Sys2Proof.Machine
end

section
/-! Proofs: what a command may write fits the block. A successful `Exec` answers scalars in [0, 2^31) and matrices that lie
inside an existing slot (40_command_model.md R126, R137). -/

namespace Sys2Proof.Machine

/-- A result write that a block with parameters `p` can hold: a scalar with bit 31 clear, or a matrix inside a slot that
exists. -/
def ResultWrite.Fits (p : Params) : ResultWrite → Prop
  | .scalarR v => 0 ≤ v ∧ v < 2 ^ 31
  | .detR v => 0 ≤ v ∧ v < 2 ^ 31
  | .slot k r c _ => k < p.nslot ∧ r ≤ p.nmax ∧ c ≤ p.nmax

/-- A residue mod a legal modulus fits a result register. -/
theorem emod_fits {s : State} (hm : s.ModulusLegal) (x : Int) :
    0 ≤ x % (uint32 s.mod : Int) ∧ x % (uint32 s.mod : Int) < 2 ^ 31 :=
  have ⟨hnonneg, _, hlt⟩ := emod_range hm.1 hm.2 x
  ⟨hnonneg, hlt⟩

/-- A gcd with a legal modulus fits a result register. -/
theorem gcdMod_fits {s : State} (hm : s.ModulusLegal) (x : Int) :
    0 ≤ (gcdMod (uint32 s.mod) x : Int) ∧ (gcdMod (uint32 s.mod) x : Int) < 2 ^ 31 := by
  obtain ⟨hpos, hmax⟩ := hm
  have hle : gcdMod (uint32 s.mod) x ≤ uint32 s.mod := Nat.gcd_le_right _ hpos
  omega

theorem StoresSquare.fits {s : State} {a dst : SlotIdx} {eff : List ResultWrite} (h : StoresSquare s a dst eff) :
    ∀ e ∈ eff, e.Fits s.params := by
  obtain ⟨-, hdst, ⟨-, hrows, -⟩, M, rfl⟩ := h
  simpa [ResultWrite.Fits] using ⟨hdst, hrows⟩

/-- Every result write of a command that succeeds fits the block. -/
theorem resultOf_fits {i : Instr} {s : State} {eff : List ResultWrite} (h : resultOf i s = .ok eff) :
    ∀ e ∈ eff, e.Fits s.params := by
  cases i with
  | sinv =>
    obtain ⟨hm, -, rfl⟩ := sinvResult_eq_ok h
    exact List.forall_mem_singleton.mpr (emod_fits hm _)
  | sgcd =>
    obtain ⟨hm, rfl⟩ := sgcdResult_eq_ok h
    exact List.forall_mem_singleton.mpr (gcdMod_fits hm _)
  | det a =>
    obtain ⟨hm, -, -, -, X, -, rfl⟩ := detResult_eq_ok h
    exact List.forall_mem_singleton.mpr (emod_fits hm _)
  | adj a dst => exact (adjResult_eq_ok h).fits
  | inv a dst => exact (invResult_eq_ok h).fits
  | solveLin a b dst => exact (solveLinResult_eq_ok h).fits
  | solveAff a b c d dst dst2 =>
    obtain ⟨-, hdst, hdst2, -, ⟨hpos, hrows, -⟩, L, v, rfl⟩ := solveAffResult_eq_ok h
    simpa [ResultWrite.Fits] using ⟨⟨hdst, hrows⟩, hdst2, hpos.trans hrows, hrows⟩

end Sys2Proof.Machine
end

section
/-! Proofs: every step keeps the invariant of the block. The invariant falls into what `STATUS` and the latch say and what
the result registers, the shapes and the entries hold; each event is shown to keep both parts. -/

namespace Sys2Proof.Machine

/-! ### The two parts of the invariant -/

/-- The part of the invariant about `STATUS`, `CMD` and the latch. -/
abbrev State.ControlInv (s : State) : Prop :=
  s.busy = s.pending.isSome ∧ s.PendingInv ∧ s.lastOp = opField s.cmd ∧ s.errCode.toNat ≤ 8 ∧ s.errArg.toNat ≤ 6

/-- The part of the invariant about what a result write can touch: the shapes, `SCALAR_R`, `DET_R` and the entries. -/
abbrev State.DataInv (s : State) : Prop :=
  s.shapes.length = s.params.nslot ∧ s.scalarR.msb = false ∧ s.detR.msb = false ∧ s.MemInv

theorem State.inv_iff (s : State) : s.Inv ↔ s.params.Legal ∧ s.ControlInv ∧ s.DataInv := by
  simp only [State.Inv, State.ControlInv, State.DataInv, and_assoc]

/-- While nothing is pending, `DONE` and `ERR` may be anything. -/
theorem State.controlInv_of_idle {s : State} (hbusy : s.busy = false) (hidle : s.pending = none)
    (hop : s.lastOp = opField s.cmd) (hcode : s.errCode.toNat ≤ 8) (harg : s.errArg.toNat ≤ 6) : s.ControlInv :=
  ⟨by rw [hbusy, hidle, Option.isSome_none], by simp [State.PendingInv, hidle], hop, hcode, harg⟩

/-! ### Resets -/

theorem memInv_of_mem_nil {s : State} (h : s.mem = []) : s.MemInv := by
  simp [State.MemInv, h]

/-- The values of power-on reset meet the invariant (70_reset_and_hazards.md R240). -/
theorem State.powerOn_inv {p : Params} (h : p.Legal) : (State.powerOn p).Inv :=
  (State.inv_iff _).mpr ⟨h, State.controlInv_of_idle rfl rfl rfl (Nat.zero_le 8) (Nat.zero_le 6),
    List.length_replicate, BitVec.msb_zero, BitVec.msb_zero, memInv_of_mem_nil rfl⟩

theorem powerOnReset_inv {s : State} (h : s.Inv) : (powerOnReset s).Inv :=
  State.powerOn_inv h.1

/-- Soft reset: the registers are those of power-on, and the entries stay (70_reset_and_hazards.md R241). -/
theorem softReset_inv {s : State} (h : s.Inv) : (softReset s).Inv := by
  obtain ⟨hlegal, -, -, -, -, hmem⟩ := s.inv_iff.mp h
  obtain ⟨-, hcontrol, hshapes, hscalar, hdet, -⟩ := (State.inv_iff _).mp (State.powerOn_inv hlegal)
  exact (State.inv_iff _).mpr ⟨hlegal, hcontrol, hshapes, hscalar, hdet, hmem⟩

/-! ### Host transactions -/

/-- Acceptance sets `STATUS` to what it is while a command is pending (40_command_model.md R121). -/
theorem accept_controlInv (s : State) (w : Word) : (accept s w).ControlInv :=
  ⟨rfl, by simp [State.PendingInv], rfl, Nat.zero_le 8, Nat.zero_le 6⟩

/-- A `STATUS` write can only clear bits, so those of a pending command stay 0 (20_memory.md R65). -/
theorem clearStatus_controlInv {s : State} (h : s.ControlInv) (v : Word) : (clearStatus s v).ControlInv := by
  obtain ⟨hbusy, hpending, hrest⟩ := h
  refine ⟨hbusy, fun w hw => ?_, hrest⟩
  obtain ⟨hcmd, hdone, herr, hfields⟩ := hpending w hw
  exact ⟨hcmd, by simp [hdone], by simp [herr], hfields⟩

theorem setShape_dataInv {s : State} (h : s.DataInv) (k : SlotIdx) (sh : Shape) : (setShape s k sh).DataInv := by
  obtain ⟨hshapes, hrest⟩ := h
  exact ⟨by simpa using hshapes, hrest⟩

/-- The host writes entries a whole word at a time, at an aligned offset of the aperture (20_memory.md R62). -/
theorem memInv_writeWord {s : State} (h : s.MemInv) {off : Nat} (v : Word) (halign : off % 4 = 0) (hlow : 0x1000 ≤ off)
    (hin : off + 4 ≤ apertureSize s.params.nmax s.params.nslot) :
    ({ s with mem := s.mem.writeWord off v } : State).MemInv :=
  memInv_writeWords h [(off, v)] (List.forall_mem_singleton.mpr ⟨halign, hlow, hin⟩)

/-- What a write at an aligned offset inside the aperture does keeps the invariant. -/
theorem writeTarget_inv {s : State} (h : s.Inv) (v : Word) {off : Nat} (halign : off % 4 = 0)
    (hin : off < apertureSize s.params.nmax s.params.nslot) : (writeTarget s v (target s.params off)).Inv := by
  obtain ⟨hlegal, hcontrol, hdata⟩ := s.inv_iff.mp h
  cases htgt : target s.params off with
  | ctrl =>
    simp only [writeTarget]
    split
    · exact softReset_inv h
    · exact h
  | cmd => exact (State.inv_iff _).mpr ⟨hlegal, accept_controlInv s v, hdata⟩
  | status => exact (State.inv_iff _).mpr ⟨hlegal, clearStatus_controlInv hcontrol v, hdata⟩
  | shape k => exact (State.inv_iff _).mpr ⟨hlegal, hcontrol, setShape_dataInv hdata k _⟩
  | entry a =>
    obtain ⟨rfl, hlow⟩ := target_eq_entry htgt
    have hfour := apertureSize_mod_four s.params.nmax s.params.nslot
    obtain ⟨hshapes, hscalar, hdet, hmem⟩ := hdata
    exact (State.inv_iff _).mpr
      ⟨hlegal, hcontrol, hshapes, hscalar, hdet, memInv_writeWord hmem v halign hlow (by omega)⟩
  | _ => exact h

theorem hostRead_inv {s : State} (h : s.Inv) (addr size : Nat) : (hostRead s addr size).Inv := by
  obtain ⟨r, n, heq⟩ := hostRead_eq s addr size
  rw [heq]
  exact h

theorem hostWrite_inv {s : State} (h : s.Inv) (addr size : Nat) (v : Word) : (hostWrite s addr size v).Inv := by
  obtain ⟨r, heq | ⟨-, heq⟩ | ⟨off, halign, hin, -, heq⟩⟩ := hostWrite_cases s addr size v
  · rw [heq]
    exact h
  · rw [heq]
    exact h
  · have hwritten := writeTarget_inv h v halign hin
    rw [heq]
    exact hwritten

/-! ### Completion -/

@[simp] theorem applyWrite_params (s : State) (e : ResultWrite) : (applyWrite s e).params = s.params := by
  cases e <;> rfl

theorem applyWrite_dataInv {s : State} (h : s.DataInv) {e : ResultWrite} (he : e.Fits s.params) :
    (applyWrite s e).DataInv := by
  obtain ⟨hshapes, hscalar, hdet, hmem⟩ := h
  cases e with
  | scalarR v => exact ⟨hshapes, msb_word32 he.1 he.2, hdet, hmem⟩
  | detR v => exact ⟨hshapes, hscalar, msb_word32 he.1 he.2, hmem⟩
  | slot k r c M =>
    obtain ⟨hk, hr, hc⟩ := he
    exact ⟨by simpa using hshapes, hscalar, hdet, memInv_applyWrite_slot hmem M hk hr hc⟩

theorem applyWrites_dataInv {s : State} (h : s.DataInv) {eff : List ResultWrite} (heff : ∀ e ∈ eff, e.Fits s.params) :
    (applyWrites s eff).DataInv := by
  induction eff generalizing s with
  | nil => exact h
  | cons e rest ih =>
    obtain ⟨he, hrest⟩ := List.forall_mem_cons.mp heff
    exact ih (applyWrite_dataInv h he) (by simpa using hrest)

/-- A completion whose result writes fit keeps the result registers, the shapes and the entries in order. -/
theorem complete_dataInv {s : State} (h : s.DataInv) {res : CmdResult}
    (hfits : ∀ eff, res = .ok eff → ∀ e ∈ eff, e.Fits s.params) : (complete s res).DataInv := by
  obtain ⟨eff, hok, heq⟩ | ⟨code, arg, -, heq⟩ | ⟨f, -, heq⟩ := complete_cases s res
  · rw [heq]
    exact applyWrites_dataInv h (hfits eff hok)
  · rw [heq]
    exact h
  · rw [heq]
    exact h

/-- The error fields after a completion are those it raised, or those that stood there. -/
theorem complete_errFields_le {s : State} (hcode : s.errCode.toNat ≤ 8) (harg : s.errArg.toNat ≤ 6) (res : CmdResult) :
    (complete s res).errCode.toNat ≤ 8 ∧ (complete s res).errArg.toNat ≤ 6 := by
  obtain ⟨eff, -, heq⟩ | ⟨code, arg, -, heq⟩ | ⟨f, -, heq⟩ := complete_cases s res
  · obtain ⟨-, -, -, -, -, hcodeEq, hargEq, -⟩ := applyWrites_frame s eff
    simpa [heq, hcodeEq, hargEq] using ⟨hcode, harg⟩
  · simpa [heq] using ⟨(errCodeBits_range code).2, errArgBits_le arg⟩
  · simpa [heq] using ⟨hcode, harg⟩

theorem complete_controlInv {s : State} (h : s.ControlInv) (res : CmdResult) : (complete s res).ControlInv := by
  obtain ⟨-, -, hopcode, hcode, harg⟩ := h
  obtain ⟨⟨-, hcmd, -, hop, -⟩, hbusy, -, hidle⟩ := complete_frame s res
  obtain ⟨hcode, harg⟩ := complete_errFields_le hcode harg res
  exact State.controlInv_of_idle hbusy hidle (by rw [hop, hcmd, hopcode]) hcode harg

theorem complete_inv {s : State} (h : s.Inv) {res : CmdResult}
    (hfits : ∀ eff, res = .ok eff → ∀ e ∈ eff, e.Fits s.params) : (complete s res).Inv := by
  obtain ⟨hlegal, hcontrol, hdata⟩ := s.inv_iff.mp h
  exact (State.inv_iff _).mpr
    ⟨by rwa [complete_params], complete_controlInv hcontrol res, complete_dataInv hdata hfits⟩

theorem engineStep_inv {s t : State} (h : s.Inv) (hstep : engineStep s = .next t) : t.Inv := by
  obtain ⟨-, hidle⟩ | ⟨w, -, res, hdone, hres⟩ := engineStep_cases s
  · rwa [← Host.Outcome.next.inj (hidle.symm.trans hstep)]
  · rw [← Host.Outcome.next.inj (hdone.symm.trans hstep)]
    refine complete_inv h fun eff hok => ?_
    obtain ⟨i, -, rfl⟩ | rfl := hres
    · exact resultOf_fits hok
    · cases hok

/-! ### The step -/

/-- Settles O23: each of the four things a step can be keeps the invariant, which does not speak of the schedule. -/
theorem stepKeepsTheInvariant : Obligations.StepKeepsTheInvariant := by
  intro s t h hstep
  obtain ⟨rest, n, u, hu, hevent⟩ := step_cases hstep
  have hinv : u.Inv := by
    rw [hu]
    exact h
  obtain ⟨addr, size, rfl⟩ | ⟨addr, size, v, rfl⟩ | hengine | ⟨-, rfl⟩ := hevent
  · exact hostRead_inv hinv addr size
  · exact hostWrite_inv hinv addr size v
  · exact engineStep_inv hinv hengine
  · exact powerOnReset_inv hinv

end Sys2Proof.Machine
end

section
/-! Proofs: which accesses fail, what the host's transactions are at a platform address, and which offsets stand for which
target (20_memory.md R60, R63, R68; 10_state.md R22). -/

namespace Sys2Proof.Machine

/-! ### Accesses that fail -/

theorem accessOk_eq_false {p : Params} {off size : Nat}
    (h : size ≠ 4 ∨ off % 4 ≠ 0 ∨ apertureSize p.nmax p.nslot ≤ off) : accessOk p off size = false := by
  obtain h | h | h := h
  · simp [accessOk, h]
  · simp [accessOk, h]
  · simp [accessOk, Nat.not_lt.mpr h]

theorem memRead_refused {s : State} {off size : Nat} (h : accessOk s.params off size = false) :
    memRead s off size = (.busError, s) := by
  simp [memRead, h]

theorem memWrite_refused {s : State} {off size : Nat} (v : Word) (h : accessOk s.params off size = false) :
    memWrite s off size v = (.busError, s) := by
  simp [memWrite, h]

/-- Settles O10: each of the three reasons refuses the access, and a refused access returns the state it found. -/
theorem refusedAccessChangesNothing : Obligations.RefusedAccessChangesNothing := by
  intro s off size v h
  have hrefused : accessOk s.params off size = false := accessOk_eq_false h
  exact ⟨memRead_refused hrefused, memWrite_refused v hrefused⟩

/-! ### Platform addresses -/

theorem hostRead_of_base_le {s : State} {addr : Nat} (size : Nat) (h : s.params.base ≤ addr) :
    hostRead s addr size = respond (memRead s (addr - s.params.base) size) :=
  if_pos h

theorem hostWrite_of_base_le {s : State} {addr : Nat} (size : Nat) (v : Word) (h : s.params.base ≤ addr) :
    hostWrite s addr size v = respond (memWrite s (addr - s.params.base) size v) :=
  if_pos h

theorem hostRead_below_base {s : State} {addr : Nat} (size : Nat) (h : addr < s.params.base) :
    hostRead s addr size = respond (.busError, s) :=
  if_neg (Nat.not_le.mpr h)

theorem hostWrite_below_base {s : State} {addr : Nat} (size : Nat) (v : Word) (h : addr < s.params.base) :
    hostWrite s addr size v = respond (.busError, s) :=
  if_neg (Nat.not_le.mpr h)

/-- Settles O11: below `BASE` the answer is a bus error, and recording it is all that happens. -/
theorem addressBelowBaseIsRefused : Obligations.AddressBelowBaseIsRefused :=
  fun _ _ size v h => ⟨hostRead_below_base size h, hostWrite_below_base size v h⟩

/-- Settles O52: from `BASE` up, a host transaction is the one at its offset, its answer recorded. -/
theorem hostTransactionReachesItsOffset : Obligations.HostTransactionReachesItsOffset :=
  fun _ _ size v h => ⟨hostRead_of_base_le size h, hostWrite_of_base_le size v h⟩

/-- Settles O14, by the inversion of a host read. -/
theorem readsHaveNoSideEffect : Obligations.ReadsHaveNoSideEffect :=
  hostRead_eq

/-! ### Classes of offsets (10_state.md R22) -/

/-- The offsets of no register: between the registers and `SHAPE[0]`, or between the last shape and the entries. -/
abbrev ReservedOffset (p : Params) (off : Nat) : Prop :=
  0x028 ≤ off ∧ off ≤ 0x0FC ∨ 0x100 + 4 * p.nslot ≤ off ∧ off ≤ 0xFFC

/-- The offsets a write to which is ignored: `ID`, `PARAMS`, `SCALAR_R`, `DET_R` and the reserved ones (20_memory.md R65). -/
abbrev IgnoredOffset (p : Params) (off : Nat) : Prop :=
  off = 0x000 ∨ off = 0x004 ∨ off = 0x020 ∨ off = 0x024 ∨ off % 4 = 0 ∧ ReservedOffset p off

/-- The offsets a write to which is dropped while `BUSY` is 1: `CMD`, `MOD`, `SCALAR_A`, the shapes and the entries
(20_memory.md R66). -/
abbrev LockedOffset (p : Params) (off : Nat) : Prop :=
  off = 0x010 ∨ off = 0x018 ∨ off = 0x01C ∨ (∃ k < p.nslot, off = 0x100 + 4 * k) ∨
    (∃ k < p.nslot, ∃ i < p.nmax, ∃ j < p.nmax, off = entryAddr p.nmax k i j)

theorem accessOk_register {p : Params} {off : Nat} (halign : off % 4 = 0) (hlow : off < 0x100) :
    accessOk p off 4 = true :=
  accessOk_low halign (by omega)

theorem accessOk_target_shape {p : Params} (hp : p.Legal) {k : Nat} (hk : k < p.nslot) :
    accessOk p (0x100 + 4 * k) 4 = true ∧ target p (0x100 + 4 * k) = .shape k := by
  obtain ⟨-, -, -, hslots⟩ := hp
  exact ⟨accessOk_low (by omega) (by omega), target_shape hk hslots⟩

theorem accessOk_reserved {p : Params} {off : Nat} (halign : off % 4 = 0) (h : ReservedOffset p off) :
    accessOk p off 4 = true :=
  accessOk_low halign (by omega)

end Sys2Proof.Machine
end

section
/-! Proofs: what a read returns (20_memory.md R64). -/

namespace Sys2Proof.Machine

/-- Only entries are ever read as free values (log 4). -/
theorem readDraws_eq_false {s : State} {tgt : Target} (h : ∀ a, tgt ≠ .entry a) : readDraws s tgt = false := by
  cases tgt with
  | entry a => exact absurd rfl (h a)
  | _ => rfl

theorem memRead_register {s : State} {off : Nat} {w : Word} (halign : off % 4 = 0) (hlow : off < 0x100)
    (hw : readTarget s (registerAt off) = w) : memRead s off 4 = (.data w, s) := by
  have htgt : target s.params off = registerAt off := target_register hlow
  rw [memRead_eq (accessOk_register halign hlow) (readDraws_eq_false (htgt ▸ registerAt_ne_entry off)), htgt, hw]

theorem memRead_shape {s : State} (hp : s.params.Legal) {k : Nat} (hk : k < s.params.nslot) :
    memRead s (0x100 + 4 * k) 4 = (.data (shapeWord (shapeAt s k)), s) := by
  obtain ⟨hok, htgt⟩ := accessOk_target_shape hp hk
  rw [memRead_eq hok (by rw [htgt]; rfl), htgt]
  rfl

theorem memRead_reserved {s : State} {off : Nat} (halign : off % 4 = 0) (h : ReservedOffset s.params off) :
    memRead s off 4 = (.data 0#32, s) := by
  have htgt : target s.params off = .reserved := target_reserved h
  rw [memRead_eq (accessOk_reserved halign h) (by rw [htgt]; rfl), htgt]
  rfl

/-- Settles O12: every register's word is the layout's number, and no read of one takes a free value. -/
theorem registerReads : Obligations.RegisterReads := by
  intro s hp
  refine ⟨memRead_register (by decide) (by decide) rfl,
    memRead_register (by decide) (by decide) (eq_ofNat_of_toNat (paramsWord_toNat hp)),
    memRead_register (by decide) (by decide) rfl,
    memRead_register (by decide) (by decide) (eq_ofNat_of_toNat (irqEnWord_toNat s)),
    memRead_register (by decide) (by decide) rfl,
    memRead_register (by decide) (by decide) (eq_ofNat_of_toNat (statusWord_toNat s)),
    memRead_register (by decide) (by decide) rfl, memRead_register (by decide) (by decide) rfl,
    memRead_register (by decide) (by decide) rfl, memRead_register (by decide) (by decide) rfl,
    fun k hk => ?_, fun off halign h => memRead_reserved halign h⟩
  rw [memRead_shape hp hk, eq_ofNat_of_toNat (shapeWord_toNat (shapeAt s k))]

/-- A read of an existing entry: the word written there, or else the next free word, which is then used up. -/
theorem memRead_entry {s : State} {k i j : Nat} (hk : k < s.params.nslot) (hi : i < s.params.nmax)
    (hj : j < s.params.nmax) :
    memRead s (entryAddr s.params.nmax k i j) 4 =
      (.data ((entryAt s k i j).getD (Config.freeWord s.draws)),
        if (entryAt s k i j).isNone then { s with draws := s.draws + 1 } else s) := by
  rw [memRead, if_pos (accessOk_entry hk hi hj), target_entry]
  rfl

/-- Settles O13: the two cases of the read of an entry. -/
theorem entryReads : Obligations.EntryReads := by
  intro s k i j hk hi hj
  have hread := memRead_entry hk hi hj
  refine ⟨fun w hw => hread.trans ?_, fun hnone => hread.trans ?_⟩
  · simp [hw]
  · simp [hnone]

end Sys2Proof.Machine
end

section
/-! Proofs: what a write does, and which writes are dropped while a command is pending (20_memory.md R65, R66). -/

namespace Sys2Proof.Machine

/-! ### Which targets are locked -/

theorem target_ignored {p : Params} {off : Nat} (h : IgnoredOffset p off) :
    accessOk p off 4 = true ∧ lockedWhileBusy (target p off) = false ∧
      ∀ s v, writeTarget s v (target p off) = s := by
  obtain rfl | rfl | rfl | rfl | ⟨halign, h⟩ := h
  iterate 4 exact ⟨accessOk_register (by decide) (by decide), rfl, fun _ _ => rfl⟩
  · rw [target_reserved h]
    exact ⟨accessOk_reserved halign h, rfl, fun _ _ => rfl⟩

theorem target_locked {p : Params} (hp : p.Legal) {off : Nat} (h : LockedOffset p off) :
    accessOk p off 4 = true ∧ lockedWhileBusy (target p off) = true := by
  obtain rfl | rfl | rfl | ⟨k, hk, rfl⟩ | ⟨k, hk, i, hi, j, hj, rfl⟩ := h
  iterate 3 exact ⟨accessOk_register (by decide) (by decide), rfl⟩
  · obtain ⟨hok, htgt⟩ := accessOk_target_shape hp hk
    exact ⟨hok, by rw [htgt]; rfl⟩
  · rw [target_entry]
    exact ⟨accessOk_entry hk hi hj, rfl⟩

/-! ### One equation per target -/

theorem memWrite_register {s : State} {off : Nat} (v : Word) (halign : off % 4 = 0) (hlow : off < 0x100)
    (hl : s.busy = false ∨ lockedWhileBusy (registerAt off) = false) :
    memWrite s off 4 v = (.done, writeTarget s v (registerAt off)) := by
  have htgt : target s.params off = registerAt off := target_register hlow
  rw [memWrite_eq v (accessOk_register halign hlow) (by rwa [htgt]), htgt]

theorem memWrite_ctrl (s : State) (v : Word) :
    memWrite s 0x008 4 v = (.done, if v.getLsbD 0 then softReset s else s) :=
  memWrite_register v (by decide) (by decide) (.inr rfl)

theorem memWrite_irqEn (s : State) (v : Word) :
    memWrite s 0x00C 4 v = (.done, { s with doneIe := v.getLsbD 0, errIe := v.getLsbD 1 }) :=
  memWrite_register v (by decide) (by decide) (.inr rfl)

theorem memWrite_status (s : State) (v : Word) : memWrite s 0x014 4 v = (.done, clearStatus s v) :=
  memWrite_register v (by decide) (by decide) (.inr rfl)

theorem memWrite_ignored {s : State} {off : Nat} (v : Word) (h : IgnoredOffset s.params off) :
    memWrite s off 4 v = (.done, s) := by
  obtain ⟨hok, hfree, hkeep⟩ := target_ignored h
  rw [memWrite_eq v hok (.inr hfree), hkeep]

theorem memWrite_cmd {s : State} (v : Word) (hidle : s.busy = false) : memWrite s 0x010 4 v = (.done, accept s v) :=
  memWrite_register v (by decide) (by decide) (.inl hidle)

theorem memWrite_mod {s : State} (v : Word) (hidle : s.busy = false) :
    memWrite s 0x018 4 v = (.done, { s with mod := v }) :=
  memWrite_register v (by decide) (by decide) (.inl hidle)

theorem memWrite_scalarA {s : State} (v : Word) (hidle : s.busy = false) :
    memWrite s 0x01C 4 v = (.done, { s with scalarA := v }) :=
  memWrite_register v (by decide) (by decide) (.inl hidle)

theorem memWrite_shape {s : State} (v : Word) (hp : s.params.Legal) (hidle : s.busy = false) {k : Nat}
    (hk : k < s.params.nslot) : memWrite s (0x100 + 4 * k) 4 v = (.done, setShape s k (shapeOfWord v)) := by
  obtain ⟨hok, htgt⟩ := accessOk_target_shape hp hk
  rw [memWrite_eq v hok (.inl hidle), htgt]
  rfl

theorem memWrite_entry {s : State} (v : Word) (hidle : s.busy = false) {k i j : Nat} (hk : k < s.params.nslot)
    (hi : i < s.params.nmax) (hj : j < s.params.nmax) :
    memWrite s (entryAddr s.params.nmax k i j) 4 v =
      (.done, { s with mem := s.mem.writeWord (entryAddr s.params.nmax k i j) v }) := by
  rw [memWrite_eq v (accessOk_entry hk hi hj) (.inl hidle), target_entry]
  rfl

/-- A 1 in the word clears the bit, a 0 keeps it. -/
theorem clearStatus_eq (s : State) (v : Word) :
    clearStatus s v = { s with
      done := if v.getLsbD 1 then false else s.done
      err := if v.getLsbD 2 then false else s.err
      busywr := if v.getLsbD 3 then false else s.busywr } := by
  simp [clearStatus, Bool.and_comm]

/-- Settles O15: the equation of each target, with what it says of the other shapes and the other bytes of memory. -/
theorem writeEffects : Obligations.WriteEffects := by
  intro s v hp
  refine ⟨memWrite_ctrl s v, memWrite_irqEn s v, clearStatus_eq s v ▸ memWrite_status s v,
    fun off h => memWrite_ignored v h, fun hidle => ⟨memWrite_cmd v hidle, memWrite_mod v hidle,
      memWrite_scalarA v hidle, fun k hk hlen => ?_, fun k hk i hi j hj => ?_⟩⟩
  case refine_1 =>
    have hsame : shapeAt (setShape s k (shapeOfWord v)) k = shapeOfWord v := shapeAt_setShape_same _ (hlen ▸ hk)
    exact ⟨_, memWrite_shape v hp hidle hk, rfl, List.length_set, congrArg Shape.rows hsame,
      congrArg Shape.cols hsame, fun k' hne => shapeAt_setShape_other _ hne⟩
  case refine_2 =>
    exact ⟨_, memWrite_entry v hidle hk hi hj, rfl, Memory.readWord_writeWord_same _ _ v,
      fun a hout => Memory.read_writeWord_other _ _ a v (by omega)⟩

/-- Settles O16: a locked offset drops the write, and the other targets do as they do in every state. -/
theorem busyWrites : Obligations.BusyWrites := by
  intro s v hp hbusy
  refine ⟨fun off h => ?_, memWrite_ctrl s v, memWrite_irqEn s v, memWrite_status s v, fun off h => memWrite_ignored v h⟩
  obtain ⟨hok, hlocked⟩ := target_locked hp h
  exact memWrite_dropped v hok hbusy hlocked

end Sys2Proof.Machine
end

section
/-! Proofs: which event a step takes, and what it leaves of the schedule (20_memory.md R70, R73). -/

namespace Sys2Proof.Machine

theorem engineStep_of_idle {s : State} (h : s.pending = none) : engineStep s = .next s := by
  simp [engineStep, h]

theorem step_of_sched_nil {s : State} (h : s.sched = []) : step s = engineStep s := by
  simp [step, h]

/-- Settles O7: the event in front is taken on the state whose schedule has moved on. -/
theorem stepTakesTheNextEvent : Obligations.StepTakesTheNextEvent := by
  intro s rest
  refine ⟨fun addr size hs => step_of_sched hs (.inr rfl), fun addr size v horder hs => step_of_sched hs (.inl horder),
    fun hs => step_of_sched hs (.inr rfl), fun hs hidle => ?_, fun hs hidle => ?_⟩
  case refine_1 => exact (step_of_sched hs (.inr rfl)).trans (engineStep_of_idle hidle)
  case refine_2 => exact (step_of_sched_nil hs).trans (engineStep_of_idle hidle)

/-! ### No event writes the schedule -/

@[simp] theorem writeTarget_sched (s : State) (v : Word) (tgt : Target) : (writeTarget s v tgt).sched = s.sched := by
  cases tgt with
  | ctrl =>
    simp only [writeTarget]
    split
    · exact softReset_sched s
    · rfl
  | _ => rfl

@[simp] theorem hostRead_sched (s : State) (addr size : Nat) : (hostRead s addr size).sched = s.sched := by
  obtain ⟨r, n, h⟩ := hostRead_eq s addr size
  rw [h]

@[simp] theorem hostWrite_sched (s : State) (addr size : Nat) (v : Word) : (hostWrite s addr size v).sched = s.sched := by
  obtain ⟨r, h | ⟨-, h⟩ | ⟨off, -, -, -, h⟩⟩ := hostWrite_cases s addr size v
  · rw [h]
  · rw [h]
  · rw [h]
    exact writeTarget_sched s v _

@[simp] theorem complete_sched (s : State) (res : CmdResult) : (complete s res).sched = s.sched := by
  obtain ⟨⟨-, -, -, -, -, -, -, -, -, -, hsched⟩, -⟩ := complete_frame s res
  exact hsched

theorem engineStep_sched {s t : State} (h : engineStep s = .next t) : t.sched = s.sched := by
  obtain ⟨-, hidle⟩ | ⟨w, -, res, hdone, -⟩ := engineStep_cases s
  · rw [Host.Outcome.next.inj (h.symm.trans hidle)]
  · rw [Host.Outcome.next.inj (h.symm.trans hdone), complete_sched]

theorem takeEvent_sched {s t : State} {ev : Event} (h : takeEvent s ev = .next t) : t.sched = s.sched := by
  cases ev with
  | read addr size => rw [← Host.Outcome.next.inj h, hostRead_sched]
  | write addr size v => rw [← Host.Outcome.next.inj h, hostWrite_sched]
  | complete => exact engineStep_sched h
  | powerOn => rw [← Host.Outcome.next.inj h, powerOnReset_sched]

/-! ### The order of the host's writes -/

/-- Out of order, the write that the exchange leaves in front arrives, and one free value more is drawn (log 22). -/
theorem step_of_write {s : State} {w : Event} {rest : List Event} (hs : s.sched = w :: rest)
    (horder : s.params.busInOrder = false) (hw : w.isWrite = true) :
    step s = takeEvent
      { s with sched := (exchangeWrite w (Config.freeArrival s.draws) rest).2, draws := s.draws + 1 }
      (exchangeWrite w (Config.freeArrival s.draws) rest).1 := by
  simp only [step, hs, arrive_write horder hw]

/-- Settles O51: in order, no event writes what is left of the schedule; out of order, the exchange of two writes leaves a
write in front and every other event at its place. -/
theorem hostWritesArriveInProgramOrder : Obligations.HostWritesArriveInProgramOrder := by
  intro s ev rest hs
  constructor
  · intro horder
    obtain ⟨t, ht⟩ := step_next s
    exact ⟨t, ht, takeEvent_sched ((step_of_sched hs (.inl horder)).symm.trans ht)⟩
  · rintro addr size v horder rfl
    obtain ⟨hfront, hperm, hplaces⟩ :=
      exchangeWrite_spec (w := .write addr size v) rfl (Config.freeArrival s.draws) rest
    obtain ⟨addr', size', v', hw⟩ := Event.isWrite_iff.mp hfront
    refine ⟨addr', size', v', _, hw ▸ hperm, hplaces, ?_⟩
    rw [step_of_write hs horder rfl, hw]
    rfl

end Sys2Proof.Machine
end

section
/-! Proofs: while a command stays pending, nothing it reads or writes changes (20_memory.md R66, R72, R74). -/

namespace Sys2Proof.Machine

/-- The latch, `CMD`, the operands and the results are the same: what a pending command and the host's reads of it rest on. -/
abbrev State.SameCommand (s t : State) : Prop :=
  t.pending = s.pending ∧ t.cmd = s.cmd ∧ t.mod = s.mod ∧ t.scalarA = s.scalarA ∧ t.shapes = s.shapes ∧
    t.mem = s.mem ∧ t.scalarR = s.scalarR ∧ t.detR = s.detR

theorem State.SameCommand.refl (s : State) : s.SameCommand s :=
  ⟨rfl, rfl, rfl, rfl, rfl, rfl, rfl, rfl⟩

/-- A write to a target that is not locked discards the command by a soft reset, or leaves it as it is (20_memory.md R66). -/
theorem writeTarget_unlocked (s : State) (v : Word) {tgt : Target} (h : lockedWhileBusy tgt = false) :
    (writeTarget s v tgt).pending = none ∨ s.SameCommand (writeTarget s v tgt) := by
  cases tgt with
  | ctrl =>
    simp only [writeTarget]
    split
    · exact .inl (softReset_pending s)
    · exact .inr (.refl s)
  | cmd => cases h
  | mod => cases h
  | scalarA => cases h
  | shape k => cases h
  | entry off => cases h
  | _ => exact .inr (.refl s)

theorem hostRead_sameCommand (s : State) (addr size : Nat) : s.SameCommand (hostRead s addr size) := by
  obtain ⟨r, n, h⟩ := hostRead_eq s addr size
  rw [h]
  exact .refl s

theorem hostWrite_busy {s : State} (hbusy : s.busy = true) (addr size : Nat) (v : Word) :
    (hostWrite s addr size v).pending = none ∨ s.SameCommand (hostWrite s addr size v) := by
  obtain ⟨r, h | ⟨-, h⟩ | ⟨off, -, -, hfree, h⟩⟩ := hostWrite_cases s addr size v
  · rw [h]
    exact .inr (.refl s)
  · rw [h]
    exact .inr (.refl s)
  · have hunlocked : lockedWhileBusy (target s.params off) = false := by simpa [hbusy] using hfree
    rw [h]
    exact writeTarget_unlocked s v hunlocked

/-- The engine's step takes the command out of the latch (40_command_model.md R125). -/
theorem engineStep_pending {s t : State} (h : engineStep s = .next t) : t.pending = none := by
  obtain ⟨hidle, hstay⟩ | ⟨w, -, res, hdone, -⟩ := engineStep_cases s
  · rwa [Host.Outcome.next.inj (h.symm.trans hstay)]
  · obtain ⟨-, -, -, hnone⟩ := complete_frame s res
    rwa [Host.Outcome.next.inj (h.symm.trans hdone)]

/-- A step from a busy state completes or discards the command, or leaves it as it is. -/
theorem step_busy {s t : State} (hbusy : s.busy = true) (h : step s = .next t) :
    t.pending = none ∨ s.SameCommand t := by
  obtain ⟨rest, n, u, rfl, ⟨addr, size, rfl⟩ | ⟨addr, size, v, rfl⟩ | hengine | ⟨-, rfl⟩⟩ := step_cases h
  · exact .inr (hostRead_sameCommand _ addr size)
  · exact hostWrite_busy (s := { s with sched := rest, draws := n }) hbusy addr size v
  · exact .inl (engineStep_pending hengine)
  · exact .inl (powerOnReset_pending _)

/-- Settles O25: by the invariant the block is busy, and `CMD` holds the pending word. -/
theorem pendingCommandKeepsItsOperands : Obligations.PendingCommandKeepsItsOperands := by
  intro s t w hinv hw hstep hpending
  obtain ⟨-, ⟨hbusyEq, hcommand, -⟩, -⟩ := s.inv_iff.mp hinv
  have hbusy : s.busy = true := by rw [hbusyEq, hw, Option.isSome_some]
  obtain ⟨hcmd, -⟩ := hcommand w hw
  obtain ⟨hlatch, hcmdEq, hoperands⟩ := (step_busy hbusy hstep).resolve_left hpending
  exact ⟨hlatch.trans hw, hcmdEq.trans hcmd, hoperands⟩

end Sys2Proof.Machine
end

section
/-! Proofs: the decoder and the encoder, by one table of the slot fields a command uses (30_encoding.md R90 to R101). -/

namespace Sys2Proof

open Machine

/-- Where the slot fields that a command uses begin in its word, in the order of `Instr.slots` (30_encoding.md R90, R93). -/
def Instr.slotBits : Instr → List Nat
  | .sinv => []
  | .sgcd => []
  | .det _ => [8]
  | .adj _ _ => [8, 24]
  | .inv _ _ => [8, 24]
  | .solveLin _ _ _ => [8, 12, 24]
  | .solveAff _ _ _ _ _ _ => [8, 12, 16, 20, 24, 28]

theorem Instr.wellFormed_iff (i : Instr) : i.WellFormed ↔ ∀ k ∈ i.slots, k < 16 := by
  simp [Instr.WellFormed, Instr.wf]

/-- Every slot of a well-formed command fits its field. -/
theorem Instr.WellFormed.slots_mod {i : Instr} (h : i.WellFormed) : i.slots.map (· % 16) = i.slots :=
  (List.map_congr_left fun k hk => Nat.mod_eq_of_lt (i.wellFormed_iff.mp h k hk)).trans (List.map_id _)

/-! ### What the decoder answers -/

/-- A decoded command has the word's opcode, and its slots are the word's fields. -/
theorem decodeWord_eq_ok {w : Word} {i : Instr} (h : decodeWord w = .ok i) :
    opField w = i.opcode ∧ i.slots = i.slotBits.map (nibble w) := by
  unfold decodeWord at h
  split_ifs at h with hop hop hop hop hop hop hop <;> (cases h; exact ⟨hop, rfl⟩)

/-- The opcode and the used fields determine the command (30_encoding.md R94). -/
theorem decodeWord_of_fields {w : Word} {i : Instr} (hop : opField w = i.opcode)
    (hslots : i.slots = i.slotBits.map (nibble w)) : decodeWord w = .ok i := by
  cases i <;> simp_all [decodeWord, Instr.opcode, Instr.slots, Instr.slotBits]

/-- A word outside the opcode map is refused with its opcode (30_encoding.md R96). -/
theorem decodeWord_of_reserved {w : Word}
    (h : opField w ∉ [0x01#8, 0x02#8, 0x10#8, 0x11#8, 0x12#8, 0x20#8, 0x21#8]) :
    decodeWord w = .error (.reservedOpcode (opField w)) := by
  simp only [List.mem_cons, List.not_mem_nil, or_false, not_or] at h
  simp [decodeWord, h]

/-- The bytes of a word in bus order make up the word, with nothing left over (20_memory.md R61). -/
theorem decodeBytes_busBytes {w : Word} {i : Instr} (h : decodeWord w = .ok i) :
    decodeBytes (busBytes w) = .ok (i, []) := by
  simp [decodeBytes, busBytes, h]

/-! ### The round trip -/

theorem opField_encode (i : Instr) : opField (encode i) = i.opcode := by
  cases i with
  | sinv => exact Laws.EncodesOpcode.sinv
  | sgcd => exact Laws.EncodesOpcode.sgcd
  | det a => exact Laws.EncodesOpcode.det a
  | adj a dst => exact Laws.EncodesOpcode.adj a dst
  | inv a dst => exact Laws.EncodesOpcode.inv a dst
  | solveLin a b dst => exact Laws.EncodesOpcode.solveLin a b dst
  | solveAff a b c d dst dst2 => exact Laws.EncodesOpcode.solveAff a b c d dst dst2

/-- Each used field of a command's word holds the slot, cut to four bits (30_encoding.md R92). -/
theorem nibbles_encode (i : Instr) : i.slotBits.map (nibble (encode i)) = i.slots.map (· % 16) := by
  cases i <;> simp [Instr.slotBits, Instr.slots, encode, nibbles_cmdWord]

/-- Settles O1: the fields of the encoded word are the command's slots, and its four bytes make up that word. -/
theorem decodeOfEncodeIsTheCommand : Obligations.DecodeOfEncodeIsTheCommand := by
  intro i hwf
  have hslots : i.slots = i.slotBits.map (nibble (encode i)) := by rw [nibbles_encode, hwf.slots_mod]
  have hdecode : decodeWord (encode i) = .ok i := decodeWord_of_fields (opField_encode i) hslots
  exact ⟨hdecode, decodeBytes_busBytes hdecode⟩

/-! ### The assembler's words -/

/-- Settles O2: each word is the sum of its opcode and its fields, and an unused field adds zero. The indices are named as
numbers, the type `omega` looks for. -/
theorem encodeIsTheAssemblerWord : Obligations.EncodeIsTheAssemblerWord := by
  refine ⟨by decide, by decide, fun (a : Nat) (ha : a < 16) (b : Nat) (hb : b < 16) (c : Nat) (hc : c < 16)
    (d : Nat) (hd : d < 16) (dst : Nat) (hdst : dst < 16) (dst2 : Nat) (hdst2 : dst2 < 16) =>
    ⟨eq_ofNat_of_toNat ?det, eq_ofNat_of_toNat ?adj, eq_ofNat_of_toNat ?inv, eq_ofNat_of_toNat ?solveLin,
      eq_ofNat_of_toNat ?solveAff⟩⟩
  all_goals
    simp only [encode, Instr.opcode, cmdWord_toNat, BitVec.toNat_ofNat]
    omega

/-- Settles O5: the words and the commands of R101 are closed terms, and decoder and encoder are evaluated on them. -/
theorem encodingExamples : Obligations.EncodingExamples := by
  unfold Obligations.EncodingExamples
  decide

/-! ### Unused fields -/

/-- The mask of a command keeps the opcode and every bit of the used fields (30_encoding.md R93). -/
theorem usedMask_keeps (i : Instr) : opField (usedMask i) = BitVec.allOnes 8 ∧
    ∀ lo ∈ i.slotBits, (usedMask i).extractLsb' lo 4 = BitVec.allOnes 4 := by
  cases i <;> (simp only [usedMask, Instr.slotBits]; decide)

theorem opField_and_usedMask (w : Word) (i : Instr) : opField (w &&& usedMask i) = opField w := by
  obtain ⟨hop, -⟩ := usedMask_keeps i
  unfold opField at *
  rw [BitVec.extractLsb'_and, hop, BitVec.and_allOnes]

theorem nibble_and_usedMask (w : Word) {i : Instr} {lo : Nat} (h : lo ∈ i.slotBits) :
    nibble (w &&& usedMask i) lo = nibble w lo := by
  obtain ⟨-, hfields⟩ := usedMask_keeps i
  rw [nibble, nibble, BitVec.extractLsb'_and, hfields lo h, BitVec.and_allOnes]

/-- Settles O3: decoding reads the opcode and the used fields only, and both survive the mask. -/
theorem unusedFieldsAreIgnored : Obligations.UnusedFieldsAreIgnored := by
  intro w i h
  obtain ⟨hop, hslots⟩ := decodeWord_eq_ok h
  refine ⟨?wellFormed, hop.symm, fun w' hagree => decodeWord_of_fields ?opcode ?fields⟩
  case wellFormed =>
    rw [i.wellFormed_iff, hslots]
    exact List.forall_mem_map.mpr fun lo _ => nibble_lt w lo
  case opcode => rw [← opField_and_usedMask w' i, hagree, opField_and_usedMask, hop]
  case fields =>
    rw [hslots]
    exact List.map_congr_left fun lo hlo => by
      rw [← nibble_and_usedMask w hlo, ← hagree, nibble_and_usedMask w' hlo]

/-! ### Reserved opcodes -/

/-- The completion of a pending word that decodes to no command (30_encoding.md R96). -/
theorem engineStep_of_reserved {s : State} {w : Word} {e : DecodeError} (hpending : s.pending = some w)
    (hdecode : decodeWord w = .error e) : engineStep s = .next (s.failedWith 8#8 0#4) := by
  simp only [engineStep, hpending, hdecode, reservedResult, complete_err, errCodeBits, errArgBits]

/-- Settles O4: the decoder refuses the word, an idle block takes any word, and the engine completes a refused one. -/
theorem reservedOpcodesReportBadOpcode : Obligations.ReservedOpcodesReportBadOpcode := by
  refine ⟨by decide +kernel, fun w hreserved => ?_⟩
  have hdecode := decodeWord_of_reserved hreserved
  exact ⟨hdecode, fun s _ hidle => memWrite_cmd w hidle, fun s hpending => engineStep_of_reserved hpending hdecode⟩

end Sys2Proof
end

section
/-! Proofs: the slot checks that every command makes first (30_encoding.md R97, 40_command_model.md R124). -/

namespace Sys2Proof.Machine

/-! ### The common prefix of a command -/

/-- The used slot fields of a command as its `Exec` names them to the slot check (30_encoding.md R93). -/
def slotFields : Instr → List (SlotIdx × ErrArg)
  | .sinv => []
  | .sgcd => []
  | .det a => [(a, .a)]
  | .adj a dst => [(a, .a), (dst, .dst)]
  | .inv a dst => [(a, .a), (dst, .dst)]
  | .solveLin a b dst => [(a, .a), (b, .b), (dst, .dst)]
  | .solveAff a b c d dst dst2 => [(a, .a), (b, .b), (c, .c), (d, .d), (dst, .dst), (dst2, .dst2)]

/-- The source slots of a command as its `Exec` names them to the shape check (40_command_model.md R124). -/
def sourceFields : Instr → List (SlotIdx × ErrArg)
  | .sinv => []
  | .sgcd => []
  | .det a => [(a, .a)]
  | .adj a _ => [(a, .a)]
  | .inv a _ => [(a, .a)]
  | .solveLin a b _ => [(a, .a), (b, .b)]
  | .solveAff a b c d _ _ => [(a, .a), (b, .b), (c, .c), (d, .d)]

theorem slotArgs_eq_map (i : Instr) : slotArgs i = (slotFields i).map fun p => (p.1, errArgBits p.2) := by
  cases i <;> rfl

/-- A chain whose first part stops, stops there. -/
theorem bind_of_error {ε α β : Type} {x : Except ε α} {e : ε} (h : x = .error e) (f : α → Except ε β) :
    (x >>= f) = .error e := by
  rw [h, except_error_bind]

/-- Every command begins with its common prefix, and completes with the error raised there (40_command_model.md R124). -/
theorem exec_of_prefix_err {i : Instr} {s : State} {code : ErrCode} {arg : ErrArg}
    (h : commonPrefix s (slotFields i) (sourceFields i) (destsDiffer i) = .error (.err code arg)) :
    exec i s = .next (s.failedWith (errCodeBits code) (errArgBits arg)) := by
  have hstop : resultOf i s = .error (.err code arg) := by cases i <;> exact bind_of_error h _
  rw [exec_eq, hstop, complete_err]

/-! ### When the slot checks stop -/

/-- The slot check stops at the first field whose slot does not exist. -/
theorem checkSlots_of_find {s : State} {l : List (SlotIdx × ErrArg)} {p : SlotIdx × ErrArg}
    (h : l.find? (fun q => decide (s.params.nslot ≤ q.1)) = some p) :
    checkSlots s l = .error (.err .badSlot p.2) := by
  induction l with
  | nil => cases h
  | cons q rest ih =>
    rw [checkSlots]
    by_cases hq : s.params.nslot ≤ q.1
    · rw [List.find?_cons_of_pos (by simpa using hq)] at h
      rw [if_pos hq, Option.some.inj h]
    · rw [List.find?_cons_of_neg (by simpa using hq)] at h
      rw [if_neg hq, ih h]

theorem commonPrefix_of_slots_error {s : State} {slots : List (SlotIdx × ErrArg)} {stop : CmdStop}
    (h : checkSlots s slots = .error stop) (sources : List (SlotIdx × ErrArg)) (rule : Bool) :
    commonPrefix s slots sources rule = .error stop :=
  bind_of_error h _

theorem commonPrefix_of_rule_fails {s : State} {slots : List (SlotIdx × ErrArg)}
    (h : ∀ p ∈ slots, p.1 < s.params.nslot) (sources : List (SlotIdx × ErrArg)) :
    commonPrefix s slots sources false = .error (.err .badSlot .dst2) := by
  rw [commonPrefix, checkSlots_ok h]
  rfl

/-- Settles O33: the prefix stops at the first field that names no slot, or, where all exist, at SOLVE_AFF's own rule. -/
theorem badSlotNamesTheFirstField : Obligations.BadSlotNamesTheFirstField := by
  refine ⟨fun i s k arg hfirst => ?offending, fun a b c d dst s hexist => ?equalDests⟩
  case offending =>
    rw [slotArgs_eq_map, List.find?_map, Option.map_eq_some_iff] at hfirst
    obtain ⟨p, hp, hpair⟩ := hfirst
    obtain ⟨-, rfl⟩ := Prod.mk.inj hpair
    exact exec_of_prefix_err (commonPrefix_of_slots_error (checkSlots_of_find hp) _ _)
  case equalDests =>
    have hslots : ∀ p ∈ slotFields (.solveAff a b c d dst dst), p.1 < s.params.nslot := by
      simpa [slotFields] using hexist
    have hrule : destsDiffer (.solveAff a b c d dst dst) = false := by simp [destsDiffer]
    exact exec_of_prefix_err (hrule ▸ commonPrefix_of_rule_fails hslots _)

end Sys2Proof.Machine
end

section
/-! Proofs: acceptance, the engine's step and completion (40_command_model.md R121, R125, R127, R140). -/

namespace Sys2Proof.Machine

/-- Every completion leaves the block idle with `DONE` set (40_command_model.md R125). -/
theorem complete_idle (s : State) (res : CmdResult) :
    (complete s res).pending = none ∧ (complete s res).busy = false ∧ (complete s res).done = true := by
  obtain ⟨-, hbusy, hdone, hpending⟩ := complete_frame s res
  exact ⟨hpending, hbusy, hdone⟩

/-- Settles O8: whatever the outcome of `Exec`, or of a reserved word, its completion ends the same way. -/
theorem everyCommandCompletes : Obligations.EveryCommandCompletes := by
  refine ⟨fun i s => ⟨_, exec_eq i s, complete_idle s _⟩, fun s w hw => ?_⟩
  obtain ⟨hidle, -⟩ | ⟨-, -, res, hdone, -⟩ := engineStep_cases s
  · rw [hidle] at hw
    cases hw
  · exact ⟨_, hdone, complete_idle s res⟩

/-- Of the three kinds of completion only an error raises `ERR`: a new error is the one its `Exec` stopped with. -/
theorem exec_new_error {i : Instr} {s t : State} (hexec : exec i s = .next t) (herr : s.err = false)
    (hfailed : t.err = true) :
    ∃ code arg, resultOf i s = .error (.err code arg) ∧ t = s.failedWith (errCodeBits code) (errArgBits arg) := by
  rw [exec_next hexec] at hfailed ⊢
  obtain ⟨eff, -, h⟩ | ⟨code, arg, hres, h⟩ | ⟨f, -, h⟩ := complete_cases s (resultOf i s)
  · obtain ⟨-, -, -, -, hkeep, -⟩ := applyWrites_frame s eff
    simp [h, hkeep, herr] at hfailed
  · exact ⟨code, arg, hres, h⟩
  · simp [h, herr] at hfailed

/-- Settles O28: a new error writes `STATUS` and the latch only, and its code is one of 60_exceptions.md R201. -/
theorem errorsWriteNoResult : Obligations.ErrorsWriteNoResult := by
  intro i s t hexec herr hfailed
  obtain ⟨code, arg, -, rfl⟩ := exec_new_error hexec herr hfailed
  obtain ⟨hcode, -⟩ := errCodeBits_range code
  exact ⟨rfl, hcode⟩

/-! ### The pending command runs -/

/-- The engine's step on a pending word that is a command. -/
theorem engineStep_of_decoded {s : State} {w : Word} {i : Instr} (hpending : s.pending = some w)
    (hdecode : decodeWord w = .ok i) : engineStep s = exec i s := by
  simp only [engineStep, hpending, hdecode]

theorem step_of_sched_complete {s : State} {rest : List Event} (hs : s.sched = .complete :: rest) :
    step s = engineStep { s with sched := rest } :=
  step_of_sched hs (.inr rfl)

/-- Settles O6: in either case the step is the engine's, on a state with the same word in the latch. -/
theorem stepRunsTheDecodedCommand : Obligations.StepRunsTheDecodedCommand := by
  intro s w hw
  refine ⟨fun i hdecode => ⟨fun hs => ?_, fun rest hs => ?_⟩, fun hreserved => ⟨fun hs => ?_, fun rest hs => ?_⟩⟩
  · exact (step_of_sched_nil hs).trans (engineStep_of_decoded hw hdecode)
  · exact (step_of_sched_complete hs).trans (engineStep_of_decoded hw hdecode)
  · exact (step_of_sched_nil hs).trans (engineStep_of_reserved hw (decodeWord_of_reserved hreserved))
  · exact (step_of_sched_complete hs).trans (engineStep_of_reserved hw (decodeWord_of_reserved hreserved))

/-- Settles O9: the word is accepted with its completion in front, so the engine's step comes next. -/
theorem placedCommandRunsNext : Obligations.PlacedCommandRunsNext := by
  intro s n i hdecode
  have hword : tableWord 32 n = BitVec.ofNat 32 n := by simp [tableWord, BitVec.toNat_eq]
  have hplaced : s.withFetchWord 32 n = loadCommand s (BitVec.ofNat 32 n) := congrArg (loadCommand s) hword
  rw [hplaced, step_of_sched_complete (loadCommand_sched s _)]
  exact engineStep_of_decoded (s := accept s _) rfl hdecode

/-- Settles O17: the write reaches `accept`, which clears both pending bits of `IRQ`. -/
theorem acceptStartsTheCommand : Obligations.AcceptStartsTheCommand :=
  fun s w _ hidle => ⟨accept s w, memWrite_cmd w hidle,
    irq_eq_false_of_clear (accept_done s w) (accept_err s w), rfl⟩

end Sys2Proof.Machine
end

section
/-! Proofs: the fault mark stays until a power-on reset (40_command_model.md R128, 70_reset_and_hazards.md R240, R241). -/

namespace Sys2Proof.Machine

/-- No write reaches the fault mark: a soft reset keeps it too (70_reset_and_hazards.md R241). -/
@[simp] theorem writeTarget_fault (s : State) (v : Word) (tgt : Target) : (writeTarget s v tgt).fault = s.fault := by
  cases tgt with
  | ctrl =>
    simp only [writeTarget]
    split
    · exact softReset_fault s
    · rfl
  | _ => rfl

@[simp] theorem hostRead_fault (s : State) (addr size : Nat) : (hostRead s addr size).fault = s.fault := by
  obtain ⟨r, n, h⟩ := hostRead_eq s addr size
  rw [h]

@[simp] theorem hostWrite_fault (s : State) (addr size : Nat) (v : Word) :
    (hostWrite s addr size v).fault = s.fault := by
  obtain ⟨r, h | ⟨-, h⟩ | ⟨off, -, -, -, h⟩⟩ := hostWrite_cases s addr size v
  · rw [h]
  · rw [h]
  · rw [h]
    exact writeTarget_fault s v _

/-- A completion leaves the mark or sets it again; there is only one reason to set it (40_command_model.md R128). -/
theorem complete_keeps_fault {s : State} {f : Fault} (h : s.fault = some f) (res : CmdResult) :
    (complete s res).fault = some f := by
  obtain ⟨eff, -, heq⟩ | ⟨code, arg, -, heq⟩ | ⟨f', -, heq⟩ := complete_cases s res
  · obtain ⟨-, -, -, -, -, -, -, hkeep⟩ := applyWrites_frame s eff
    rw [heq, finish_fault, hkeep, h]
  · rw [heq, State.failedWith_fault, h]
  · rw [heq, finish_fault, recordFault_fault]

theorem engineStep_keeps_fault {s t : State} {f : Fault} (h : s.fault = some f) (hstep : engineStep s = .next t) :
    t.fault = some f := by
  obtain ⟨-, hidle⟩ | ⟨w, -, res, hdone, -⟩ := engineStep_cases s
  · rwa [Host.Outcome.next.inj (hstep.symm.trans hidle)]
  · rw [Host.Outcome.next.inj (hstep.symm.trans hdone), complete_keeps_fault h]

/-- Settles O26: of the four things a step can be, only a power-on reset clears the mark. -/
theorem faultMarkStays : Obligations.FaultMarkStays := by
  intro s t f hfault hstep hnoReset
  obtain ⟨rest, n, u, hu, hevent⟩ := step_cases hstep
  have hmark : u.fault = some f := by rw [hu, hfault]
  obtain ⟨addr, size, rfl⟩ | ⟨addr, size, v, rfl⟩ | hengine | ⟨hreset, -⟩ := hevent
  · rw [hostRead_fault, hmark]
  · rw [hostWrite_fault, hmark]
  · exact engineStep_keeps_fault hmark hengine
  · exact absurd hreset (hnoReset rest)

end Sys2Proof.Machine
end

section
/-! Proofs: the checks after the slot checks, in the order of 60_exceptions.md R203: the modulus, the source shapes, and the
source entries that were never written (40_command_model.md R124, R128, R129). -/

namespace Sys2Proof.Machine

/-! ### The modulus and the shapes -/

theorem sourceArgs_eq_map (i : Instr) : sourceArgs i = (sourceFields i).map fun p => (p.1, errArgBits p.2) := by
  cases i <;> rfl

/-- Once the slot fields pass, a command's prefix is the modulus check and the shape check (40_command_model.md R124). -/
theorem commonPrefix_of_slotsPass {i : Instr} {s : State} (h : s.SlotsPass i) :
    commonPrefix s (slotFields i) (sourceFields i) (destsDiffer i) = (do
      let m ← checkModulus s
      checkShapes s (sourceFields i)
      .ok m) := by
  obtain ⟨hslots, hdests⟩ := h
  rw [slotArgs_eq_map, List.forall_mem_map] at hslots
  rw [commonPrefix, checkSlots_ok hslots, hdests, require_true, except_ok_bind, except_ok_bind]

/-- The model's shape check is the shape rule of 40_command_model.md R124. -/
theorem legalShape_eq_decide (s : State) (k : SlotIdx) :
    legalShape s.params.nmax (shapeAt s k) = decide (s.ShapeLegal k) := by
  rw [Bool.eq_iff_iff, legalShape_iff, decide_eq_true_iff]

/-- The shape check stops at the first source whose shape is illegal. -/
theorem checkShapes_of_find {s : State} {l : List (SlotIdx × ErrArg)} {p : SlotIdx × ErrArg}
    (h : l.find? (fun q => !decide (s.ShapeLegal q.1)) = some p) :
    checkShapes s l = .error (.err .badShape p.2) := by
  simp only [← legalShape_eq_decide] at h
  induction l with
  | nil => cases h
  | cons q rest ih =>
    rw [checkShapes]
    cases hq : legalShape s.params.nmax (shapeAt s q.1) with
    | true =>
      rw [List.find?_cons_of_neg (by simp [hq])] at h
      rw [if_pos rfl, ih h]
    | false =>
      rw [List.find?_cons_of_pos (by simp [hq])] at h
      rw [if_neg Bool.false_ne_true, Option.some.inj h]

/-- Settles O34: with the slot fields good, the modulus check is the first that can stop. -/
theorem badModulusIsReported : Obligations.BadModulusIsReported := by
  intro i s hslots hmod
  have hbad : ¬ s.ModulusLegal := by
    rintro ⟨hpos, hmax⟩
    omega
  have hprefix := (commonPrefix_of_slotsPass hslots).trans (bind_of_error (checkModulus_bad hbad) _)
  exact exec_of_prefix_err hprefix

/-- Settles O35: with the slot fields and the modulus good, the shape check stops at the first illegal source. -/
theorem badShapeNamesTheFirstSource : Obligations.BadShapeNamesTheFirstSource := by
  intro i s k arg hslots hmod hfirst
  rw [sourceArgs_eq_map, List.find?_map, Option.map_eq_some_iff] at hfirst
  obtain ⟨p, hp, hpair⟩ := hfirst
  obtain ⟨-, rfl⟩ := Prod.mk.inj hpair
  have hprefix : commonPrefix s (slotFields i) (sourceFields i) (destsDiffer i) = .error (.err .badShape p.2) := by
    rw [commonPrefix_of_slotsPass hslots, checkModulus_ok hmod, checkShapes_of_find hp]
    rfl
  exact exec_of_prefix_err hprefix

/-! ### Entries never written -/

/-- The prefix of a command passes when every check of it does. -/
theorem commonPrefix_passes {i : Instr} {s : State} (hslots : s.SlotsPass i) (hmod : s.ModulusLegal)
    (hshapes : ∀ p ∈ sourceArgs i, s.ShapeLegal p.1) :
    commonPrefix s (slotFields i) (sourceFields i) (destsDiffer i) = .ok (uint32 s.mod) := by
  rw [sourceArgs_eq_map, List.forall_mem_map] at hshapes
  rw [commonPrefix_of_slotsPass hslots, checkModulus_ok hmod,
    checkShapes_ok fun p hp => legalShape_iff.mpr (hshapes p hp)]
  rfl

/-- Some entry of slot `k` inside its shape was not written since power-on (40_command_model.md R128). -/
def State.Unwritten (s : State) (k : SlotIdx) : Prop :=
  ∃ x < (shapeAt s k).rows.toNat, ∃ y < (shapeAt s k).cols.toNat, entryAt s k x y = none

theorem allWritten_eq_false {s : State} {k : SlotIdx} (h : s.Unwritten k) :
    allWritten s k (shapeAt s k).rows.toNat (shapeAt s k).cols.toNat = false := by
  obtain ⟨x, hx, y, hy, hnone⟩ := h
  rw [allWritten, List.all_eq_false]
  refine ⟨x, List.mem_range.mpr hx, ?_⟩
  rw [Bool.not_eq_true, List.all_eq_false]
  exact ⟨y, List.mem_range.mpr hy, by simp [hnone]⟩

/-- Reading one of several sources: if it is not written in full, or else a later part of the command marks the run, then the
command marks the run. -/
theorem readOperand_then_fault {s : State} {m : Nat} {k : SlotIdx} {f : Operand → CmdResult}
    (h : ¬ s.Unwritten k → ∀ X, f X = .error (.fault .uninitOperand)) :
    (readOperand s m k >>= f) = .error (.fault .uninitOperand) := by
  by_cases hk : s.Unwritten k
  · rw [readOperand, readBlock, if_neg (by simp [allWritten_eq_false hk]), except_error_bind]
  · cases hread : readOperand s m k with
    | ok X => exact h hk X
    | error e =>
      rw [readOperand, readBlock] at hread
      split at hread
      · cases hread
      · cases hread
        rfl

/-- With the prefix passed, a command with an unwritten source ends in the model's fault. -/
theorem resultOf_of_unwritten {i : Instr} {s : State} {m : Nat}
    (hprefix : commonPrefix s (slotFields i) (sourceFields i) (destsDiffer i) = .ok m)
    (hunwritten : ∃ p ∈ sourceArgs i, s.Unwritten p.1) : resultOf i s = .error (.fault .uninitOperand) := by
  have hresume : ∀ f : Nat → CmdResult,
      (commonPrefix s (slotFields i) (sourceFields i) (destsDiffer i) >>= f) = f m := fun f => by
    rw [hprefix, except_ok_bind]
  cases i with
  | sinv | sgcd => simp [sourceArgs] at hunwritten
  | det a | adj a dst | inv a dst =>
    refine (hresume _).trans (readOperand_then_fault fun hA => absurd ?_ hA)
    simpa [sourceArgs] using hunwritten
  | solveLin a b dst =>
    refine (hresume _).trans (readOperand_then_fault fun hA _ => readOperand_then_fault fun hB => absurd ?_ hB)
    simpa [sourceArgs, hA] using hunwritten
  | solveAff a b c d dst dst2 =>
    refine (hresume _).trans (readOperand_then_fault fun hA _ => readOperand_then_fault fun hB _ =>
      readOperand_then_fault fun hC _ => readOperand_then_fault fun hD => absurd ?_ hD)
    simpa [sourceArgs, hA, hB, hC] using hunwritten

/-- Settles O36: every check passes, and reading the sources meets an entry that was never written. -/
theorem unwrittenOperandMarksTheRun : Obligations.UnwrittenOperandMarksTheRun := by
  intro i s hslots hmod hshapes hunwritten
  have hfault := resultOf_of_unwritten (commonPrefix_passes hslots hmod hshapes) hunwritten
  rw [exec_eq, hfault, complete_fault]
  rfl

end Sys2Proof.Machine
end

section
/-! Proofs: the outcome of a command depends on its operands only (40_command_model.md R122). Two states that agree on the
operands get one outcome, and a completion with one outcome leaves each field as it was in both, or the same in both. -/

namespace Sys2Proof.Machine

/-! ### One outcome -/

/-- Two chains with the same first part agree when they agree on what it answers. -/
theorem bind_congr_ok {ε α β : Type} {x y : Except ε α} {f g : α → Except ε β} (hxy : x = y)
    (hfg : ∀ a, y = .ok a → f a = g a) : (x >>= f) = (y >>= g) := by
  subst hxy
  cases hx : x with
  | error e => rfl
  | ok a => exact hfg a hx

theorem matOf_congr {r c : Nat} {f g : Nat → Nat → Int} (h : ∀ i < r, ∀ j < c, f i j = g i j) :
    matOf r c f = matOf r c g :=
  List.map_congr_left fun i hi => List.map_congr_left fun j hj => h i (List.mem_range.mp hi) j (List.mem_range.mp hj)

/-- Slot `k` reads the same in both states: its shape, and every entry a legal shape can reach. -/
abbrev State.SameSlot (s s' : State) (k : SlotIdx) : Prop :=
  shapeAt s' k = shapeAt s k ∧ ∀ x < s.params.nmax, ∀ y < s.params.nmax, entryAt s' k x y = entryAt s k x y

theorem checkSlots_congr {s s' : State} (hp : s'.params = s.params) (l : List (SlotIdx × ErrArg)) :
    checkSlots s' l = checkSlots s l := by
  induction l with
  | nil => rfl
  | cons p rest ih => rw [checkSlots, checkSlots, hp, ih]

theorem checkModulus_congr {s s' : State} (hmod : s'.mod = s.mod) : checkModulus s' = checkModulus s := by
  simp only [checkModulus, hmod]

theorem checkShapes_congr {s s' : State} (hp : s'.params = s.params) {l : List (SlotIdx × ErrArg)}
    (h : ∀ p ∈ l, shapeAt s' p.1 = shapeAt s p.1) : checkShapes s' l = checkShapes s l := by
  induction l with
  | nil => rfl
  | cons p rest ih =>
    obtain ⟨hhead, hrest⟩ := List.forall_mem_cons.mp h
    rw [checkShapes, checkShapes, hp, hhead, ih hrest]

theorem commonPrefix_congr {s s' : State} (hp : s'.params = s.params) (hmod : s'.mod = s.mod)
    {sources : List (SlotIdx × ErrArg)} (h : ∀ p ∈ sources, shapeAt s' p.1 = shapeAt s p.1)
    (slots : List (SlotIdx × ErrArg)) (rule : Bool) :
    commonPrefix s' slots sources rule = commonPrefix s slots sources rule := by
  simp only [commonPrefix, checkSlots_congr hp, checkModulus_congr hmod, checkShapes_congr hp h]

/-- A source with a legal shape is read the same in both states. -/
theorem readOperand_congr {s s' : State} {k : SlotIdx} (h : s.SameSlot s' k)
    (hlegal : legalShape s.params.nmax (shapeAt s k) = true) (m : Nat) : readOperand s' m k = readOperand s m k := by
  obtain ⟨hshape, hentries⟩ := h
  obtain ⟨-, hrows, -, hcols⟩ := legalShape_iff.mp hlegal
  have hentry : ∀ x < (shapeAt s k).rows.toNat, ∀ y < (shapeAt s k).cols.toNat, entryAt s' k x y = entryAt s k x y :=
    fun x hx y hy => hentries x (hx.trans_le hrows) y (hy.trans_le hcols)
  have hwritten : allWritten s' k (shapeAt s k).rows.toNat (shapeAt s k).cols.toNat =
      allWritten s k (shapeAt s k).rows.toNat (shapeAt s k).cols.toNat := by
    rw [Bool.eq_iff_iff]
    simp +contextual [allWritten, hentry]
  have hmat : (matOf (shapeAt s k).rows.toNat (shapeAt s k).cols.toNat fun i j => entryInt s' k i j % m) =
      matOf (shapeAt s k).rows.toNat (shapeAt s k).cols.toNat fun i j => entryInt s k i j % m :=
    matOf_congr fun i hi j hj => by rw [entryInt, hentry i hi j hj, entryInt]
  rw [readOperand, hshape, readBlock, hwritten, hmat]
  rfl

/-- `Exec` reads only the parameters, MOD, SCALAR_A and the source slots (40_command_model.md R122). -/
theorem resultOf_congr {i : Instr} {s s' : State} (hp : s'.params = s.params) (hmod : s'.mod = s.mod)
    (hscalar : s'.scalarA = s.scalarA) (hsources : ∀ p ∈ sourceFields i, s.SameSlot s' p.1) :
    resultOf i s' = resultOf i s := by
  have hoperand : scalarOperand s' = scalarOperand s := by funext m; rw [scalarOperand, hscalar, scalarOperand]
  have hprefix := commonPrefix_congr hp hmod (fun p hpm => (hsources p hpm).1) (slotFields i) (destsDiffer i)
  have hread : ∀ {m}, commonPrefix s (slotFields i) (sourceFields i) (destsDiffer i) = .ok m →
      ∀ p ∈ sourceFields i, ∀ m', readOperand s' m' p.1 = readOperand s m' p.1 := fun hm p hpm => by
    obtain ⟨-, -, -, -, hlegal⟩ := commonPrefix_eq_ok hm
    exact readOperand_congr (hsources p hpm) (hlegal p hpm)
  cases i with
  | sinv => exact bind_congr_ok hprefix fun m _ => by rw [hoperand]
  | sgcd => exact bind_congr_ok hprefix fun m _ => by rw [hoperand]
  | det a | adj a dst | inv a dst =>
    exact bind_congr_ok hprefix fun m hm => by
      rw [hread hm (a, .a) (by simp [sourceFields])]
  | solveLin a b dst =>
    exact bind_congr_ok hprefix fun m hm => by
      simp only [hread hm (a, .a) (by simp [sourceFields]), hread hm (b, .b) (by simp [sourceFields])]
  | solveAff a b c d dst dst2 =>
    exact bind_congr_ok hprefix fun m hm => by
      simp only [hread hm (a, .a) (by simp [sourceFields]), hread hm (b, .b) (by simp [sourceFields]),
        hread hm (c, .c) (by simp [sourceFields]), hread hm (d, .d) (by simp [sourceFields])]

/-! ### One completion -/

/-- A value that two runs leave as it was in both, or make the same in both. -/
abbrev KeptOrEqual {α : Type} (a a' b b' : α) : Prop := (b = a ∧ b' = a') ∨ b' = b

theorem KeptOrEqual.trans {α : Type} {a a' b b' c c' : α} (h : KeptOrEqual a a' b b') (h' : KeptOrEqual b b' c c') :
    KeptOrEqual a a' c c' := by
  obtain ⟨rfl, rfl⟩ | rfl := h'
  · exact h
  · exact .inr rfl

/-- A field is kept or made equal by every completion, if it is by one result write, by a stop and by the last step `finish`. -/
theorem complete_keptOrEqual {α : Type} (field : State → α)
    (hwrite : ∀ s s' e, KeptOrEqual (field s) (field s') (field (applyWrite s e)) (field (applyWrite s' e)))
    (hstop : ∀ s s' e, KeptOrEqual (field s) (field s') (field (complete s (.error e))) (field (complete s' (.error e))))
    (hfinish : ∀ s, field (finish s) = field s) (s s' : State) (res : CmdResult) :
    KeptOrEqual (field s) (field s') (field (complete s res)) (field (complete s' res)) := by
  cases res with
  | error e => exact hstop s s' e
  | ok eff =>
    rw [complete_ok, complete_ok, hfinish, hfinish]
    induction eff generalizing s s' with
    | nil => exact .inl ⟨rfl, rfl⟩
    | cons e rest ih => exact (hwrite s s' e).trans (ih _ _)

theorem complete_scalarR_keptOrEqual (s s' : State) (res : CmdResult) :
    KeptOrEqual s.scalarR s'.scalarR (complete s res).scalarR (complete s' res).scalarR := by
  refine complete_keptOrEqual State.scalarR (fun s s' e => ?_) (fun s s' e => ?_) finish_scalarR s s' res
  · cases e with
    | scalarR v => exact .inr rfl
    | detR v | slot k r c M => exact .inl ⟨rfl, rfl⟩
  · cases e <;> exact .inl ⟨rfl, rfl⟩

theorem complete_detR_keptOrEqual (s s' : State) (res : CmdResult) :
    KeptOrEqual s.detR s'.detR (complete s res).detR (complete s' res).detR := by
  refine complete_keptOrEqual State.detR (fun s s' e => ?_) (fun s s' e => ?_) finish_detR s s' res
  · cases e with
    | detR v => exact .inr rfl
    | scalarR v | slot k r c M => exact .inl ⟨rfl, rfl⟩
  · cases e <;> exact .inl ⟨rfl, rfl⟩

theorem complete_fault_keptOrEqual (s s' : State) (res : CmdResult) :
    KeptOrEqual s.fault s'.fault (complete s res).fault (complete s' res).fault := by
  refine complete_keptOrEqual State.fault (fun s s' e => ?_) (fun s s' e => ?_) finish_fault s s' res
  · cases e <;> exact .inl ⟨rfl, rfl⟩
  · cases e with
    | err code arg => exact .inl ⟨rfl, rfl⟩
    | fault f => exact .inr rfl

/-- The error fields: kept in both, or `ERR` set in both with one code and one arg. -/
theorem complete_errFields_keptOrEqual (s s' : State) (res : CmdResult) :
    ((complete s res).err = s.err ∧ (complete s' res).err = s'.err ∧
      (complete s res).errCode = s.errCode ∧ (complete s' res).errCode = s'.errCode ∧
      (complete s res).errArg = s.errArg ∧ (complete s' res).errArg = s'.errArg) ∨
    ((complete s res).err = true ∧ (complete s' res).err = true ∧
      (complete s' res).errCode = (complete s res).errCode ∧ (complete s' res).errArg = (complete s res).errArg) := by
  match res with
  | .ok eff =>
    obtain ⟨-, -, -, -, herr, hcode, harg, -⟩ := applyWrites_frame s eff
    obtain ⟨-, -, -, -, herr', hcode', harg', -⟩ := applyWrites_frame s' eff
    exact .inl ⟨herr, herr', hcode, hcode', harg, harg'⟩
  | .error (.err code arg) => exact .inr ⟨rfl, rfl, rfl, rfl⟩
  | .error (.fault f) => exact .inl ⟨rfl, rfl, rfl, rfl, rfl, rfl⟩

/-! ### The slots after a completion -/

theorem State.SameSlot.refl (s : State) (k : SlotIdx) : s.SameSlot s k := ⟨rfl, fun _ _ _ _ => rfl⟩

theorem State.SameSlot.trans {s t u : State} {k : SlotIdx} (hp : t.params = s.params) (h : s.SameSlot t k)
    (h' : t.SameSlot u k) : s.SameSlot u k := by
  obtain ⟨hshape, hentries⟩ := h
  obtain ⟨hshape', hentries'⟩ := h'
  rw [hp] at hentries'
  exact ⟨hshape'.trans hshape, fun x hx y hy => (hentries' x hx y hy).trans (hentries x hx y hy)⟩

/-- In both states slot `k` has one shape, within `NMAX`, and inside it the same entries. -/
abbrev State.SameMatrix (t t' : State) (k : SlotIdx) : Prop :=
  shapeAt t' k = shapeAt t k ∧ (shapeAt t k).rows.toNat ≤ t.params.nmax ∧ (shapeAt t k).cols.toNat ≤ t.params.nmax ∧
  ∀ x < (shapeAt t k).rows.toNat, ∀ y < (shapeAt t k).cols.toNat, entryAt t' k x y = entryAt t k x y

/-- Two states that hold one matrix still do when each goes on to a state with the same slot. -/
theorem State.SameMatrix.of_sameSlot {t t' u u' : State} {k : SlotIdx} (h : t.SameMatrix t' k)
    (hp : t'.params = t.params) (hpu : u.params = t.params) (hu : t.SameSlot u k) (hu' : t'.SameSlot u' k) :
    u.SameMatrix u' k := by
  obtain ⟨hshape, hrows, hcols, hentries⟩ := h
  obtain ⟨hushape, huentries⟩ := hu
  obtain ⟨hushape', huentries'⟩ := hu'
  rw [hp] at huentries'
  refine ⟨by rw [hushape', hushape, hshape], by rwa [hushape, hpu], by rwa [hushape, hpu], ?_⟩
  rw [hushape]
  intro x hx y hy
  have hxn := hx.trans_le hrows
  have hyn := hy.trans_le hcols
  rw [huentries' x hxn y hyn, huentries x hxn y hyn, hentries x hx y hy]

/-- Slot `k` is as it was in both states, or they hold one matrix there. -/
def SlotKeptOrEqual (k : SlotIdx) (s s' t t' : State) : Prop :=
  (s.SameSlot t k ∧ s'.SameSlot t' k) ∨ t.SameMatrix t' k

theorem sameSlot_applyWrite_other {s : State} {k k' r c : Nat} (hne : k ≠ k') (hr : r ≤ s.params.nmax)
    (hc : c ≤ s.params.nmax) (M : Mat) : s.SameSlot (applyWrite s (.slot k' r c M)) k :=
  ⟨shapeAt_setShape_other _ hne, fun _ hx _ hy => entryAt_writeBlock_other M hne hr hc hx hy⟩

theorem applyWrites_params (s : State) (eff : List ResultWrite) : (applyWrites s eff).params = s.params := by
  obtain ⟨⟨hparams, -⟩, -⟩ := applyWrites_frame s eff
  exact hparams

/-- Two blocks with the same legal parameters, each with all its shapes. -/
structure State.SameLayout (s s' : State) : Prop where
  params : s'.params = s.params
  legal : s.params.Legal
  shapes : s.shapes.length = s.params.nslot
  shapes' : s'.shapes.length = s.params.nslot

theorem State.SameLayout.applyWrite {s s' : State} (h : s.SameLayout s') (e : ResultWrite) :
    (applyWrite s e).SameLayout (applyWrite s' e) := by
  obtain ⟨hparams, hlegal, hshapes, hshapes'⟩ := h
  have hlen : ∀ u : State, (Machine.applyWrite u e).shapes.length = u.shapes.length := fun u => by cases e <;> simp
  constructor
  · rw [applyWrite_params, applyWrite_params, hparams]
  · rwa [applyWrite_params]
  · rw [hlen, applyWrite_params, hshapes]
  · rw [hlen, applyWrite_params, hshapes']

/-- A matrix within `NMAX` written to the same slot of both blocks. -/
theorem sameMatrix_applyWrite {s s' : State} (h : s.SameLayout s') {k r c : Nat} (hk : k < s.params.nslot)
    (hr : r ≤ s.params.nmax) (hc : c ≤ s.params.nmax) (M : Mat) :
    (applyWrite s (.slot k r c M)).SameMatrix (applyWrite s' (.slot k r c M)) k := by
  obtain ⟨hparams, ⟨-, hnmax, -⟩, hshapes, hshapes'⟩ := h
  have hshape : shapeAt (applyWrite s (.slot k r c M)) k = ⟨BitVec.ofNat 8 r, BitVec.ofNat 8 c⟩ :=
    shapeAt_setShape_same _ (hshapes ▸ hk)
  have hshape' : shapeAt (applyWrite s' (.slot k r c M)) k = ⟨BitVec.ofNat 8 r, BitVec.ofNat 8 c⟩ :=
    shapeAt_setShape_same _ (hshapes' ▸ hk)
  have hrows : (BitVec.ofNat 8 r).toNat = r := Nat.mod_eq_of_lt (by omega)
  have hcols : (BitVec.ofNat 8 c).toNat = c := Nat.mod_eq_of_lt (by omega)
  refine ⟨?_, ?_, ?_, ?_⟩
  · rw [hshape, hshape']
  · rwa [hshape, applyWrite_params, hrows]
  · rwa [hshape, applyWrite_params, hcols]
  · simp only [hshape, hrows, hcols]
    intro x hx y hy
    rw [applyWrite_slot, applyWrite_slot, entryAt_writeBlock M (by simpa [hparams] using hc) hx hy,
      entryAt_writeBlock M (by simpa using hc) hx hy]

theorem applyWrite_slotKeptOrEqual {s s' : State} (h : s.SameLayout s') {e : ResultWrite} (he : e.Fits s.params)
    (k : SlotIdx) : SlotKeptOrEqual k s s' (applyWrite s e) (applyWrite s' e) := by
  cases e with
  | scalarR v | detR v => exact .inl ⟨.refl s k, .refl s' k⟩
  | slot k' r c M =>
    obtain ⟨hk', hr, hc⟩ := he
    by_cases hk : k = k'
    · subst hk
      exact .inr (sameMatrix_applyWrite h hk' hr hc M)
    · have hparams := h.params
      exact .inl ⟨sameSlot_applyWrite_other hk hr hc M, sameSlot_applyWrite_other hk (hparams ▸ hr) (hparams ▸ hc) M⟩

theorem applyWrites_slotKeptOrEqual {s s' : State} (h : s.SameLayout s') {eff : List ResultWrite}
    (heff : ∀ e ∈ eff, e.Fits s.params) (k : SlotIdx) :
    SlotKeptOrEqual k s s' (applyWrites s eff) (applyWrites s' eff) := by
  induction eff generalizing s s' with
  | nil => exact .inl ⟨.refl s k, .refl s' k⟩
  | cons e rest ih =>
    obtain ⟨he, hrest⟩ := List.forall_mem_cons.mp heff
    rw [applyWrites_cons, applyWrites_cons]
    obtain ⟨hsame, hsame'⟩ | hmatrix := ih (h.applyWrite e) (by simpa using hrest)
    · obtain ⟨hhead, hhead'⟩ | hmatrix := applyWrite_slotKeptOrEqual h he k
      · exact .inl ⟨hhead.trans (applyWrite_params s e) hsame, hhead'.trans (applyWrite_params s' e) hsame'⟩
      · exact .inr (hmatrix.of_sameSlot (h.applyWrite e).params (applyWrites_params _ rest) hsame hsame')
    · exact .inr hmatrix

/-- A completion leaves each slot as it was in both blocks, or gives it the same matrix in both. -/
theorem complete_slotKeptOrEqual {s s' : State} (h : s.SameLayout s') {res : CmdResult}
    (hfits : ∀ eff, res = .ok eff → ∀ e ∈ eff, e.Fits s.params) (k : SlotIdx) :
    SlotKeptOrEqual k s s' (complete s res) (complete s' res) := by
  match res with
  | .ok eff => exact applyWrites_slotKeptOrEqual h (hfits eff rfl) k
  | .error (.err code arg) => exact .inl ⟨.refl s k, .refl s' k⟩
  | .error (.fault f) => exact .inl ⟨.refl s k, .refl s' k⟩

/-- Settles O27: the operands give both states one outcome, and one outcome completes alike in both. -/
theorem outcomeDependsOnOperandsOnly : Obligations.OutcomeDependsOnOperandsOnly := by
  intro i s s' hinv hinv' hparams hmod hscalar hoperands
  have hsources : ∀ p ∈ sourceFields i, s.SameSlot s' p.1 := by
    rwa [sourceArgs_eq_map, List.forall_mem_map] at hoperands
  have hsame : resultOf i s' = resultOf i s := resultOf_congr hparams hmod hscalar hsources
  obtain ⟨hlegal, -, hshapes, -⟩ := s.inv_iff.mp hinv
  obtain ⟨-, -, hshapes', -⟩ := s'.inv_iff.mp hinv'
  have hlayout : s.SameLayout s' := ⟨hparams, hlegal, hshapes, hparams ▸ hshapes'⟩
  refine ⟨_, _, exec_eq i s, hsame ▸ exec_eq i s', complete_errFields_keptOrEqual .., complete_fault_keptOrEqual ..,
    complete_scalarR_keptOrEqual .., complete_detR_keptOrEqual .., fun k _ => ?_⟩
  obtain ⟨⟨hshape, hentries⟩, hshape', hentries'⟩ | hmatrix :=
    complete_slotKeptOrEqual hlayout (fun eff hok => resultOf_fits hok) k
  · rw [hparams] at hentries'
    exact .inl ⟨hshape, hshape', fun x hx y hy => ⟨hentries x hx y hy, hentries' x hx y hy⟩⟩
  · obtain ⟨hshape, -, -, hentries⟩ := hmatrix
    exact .inr ⟨hshape, hentries⟩

end Sys2Proof.Machine
end

section
/-! Proofs: what the matrix commands store, as matrices, and its products with the source (40_command_model.md R126, R137,
R139). -/

namespace Sys2Proof.Machine

/-! ### Residues -/

/-- A matrix computed entry by entry mod m has its entries in [0, m), whatever part of it is read (40_command_model.md R137). -/
theorem inRange_matOf {m r c r' c' : Nat} (hm : 1 ≤ m) (hr : r ≤ r') (hc : c ≤ c') (f : Nat → Nat → Int) :
    InRange m (matrixOf r c (matOf r' c' fun i j => f i j % m)) := by
  intro i j
  rw [matrixOf_apply, entry_matOf _ (i.isLt.trans_le hr) (j.isLt.trans_le hc)]
  exact ⟨Int.emod_nonneg _ (by omega), Int.emod_lt_of_pos _ (by omega)⟩

theorem inRange_adjMod {m : Nat} (hm : 1 ≤ m) (n : Nat) (A : Mat) : InRange m (matrixOf n n (adjMod m n A)) :=
  inRange_matOf hm le_rfl le_rfl _

theorem inRange_inverseMod {m : Nat} (hm : 1 ≤ m) (n : Nat) (A : Mat) : InRange m (matrixOf n n (inverseMod m n A)) :=
  inRange_matOf hm le_rfl le_rfl _

theorem inRange_mulMod {m : Nat} (hm : 1 ≤ m) (n : Nat) (X Y : Mat) : InRange m (matrixOf n n (mulMod m n X Y)) :=
  inRange_matOf hm le_rfl le_rfl _

/-- Row 0 alone is in range too, which is what SOLVE_AFF stores of `Y1 - X1·L` (43_solver.md R185). -/
theorem inRange_subMod {m r n : Nat} (hm : 1 ≤ m) (hr : r ≤ n) (X Y : Mat) :
    InRange m (matrixOf r n (subMod m n X Y)) :=
  inRange_matOf hm hr le_rfl _

theorem eqMod_adjMod {m n : Nat} {X : Mat} {A : Matrix (Fin n) (Fin n) ℤ} (h : EqMod m (matrixOf n n X) A) :
    EqMod m (matrixOf n n (adjMod m n X)) A.adjugate := by
  rw [matrixOf_adjMod]
  exact (eqMod_emod _).trans h.adjugate

/-! ### What a slot holds after a completion -/

/-- A slot written with residues of a legal modulus holds them (40_command_model.md R126, R137). -/
theorem slotWritten_of_inRange {s : State} (hlegal : s.params.Legal) (hshapes : s.shapes.length = s.params.nslot)
    {m k r c : Nat} {M : Mat} (hm : m ≤ 2 ^ 31 - 1) (hk : k < s.params.nslot) (hr : r ≤ s.params.nmax)
    (hc : c ≤ s.params.nmax) (hM : InRange m (matrixOf r c M)) :
    (applyWrite s (.slot k r c M)).SlotWritten k r c (matrixOf r c M) := by
  obtain ⟨-, hnmax, -⟩ := hlegal
  refine slotWritten_of_write (hshapes ▸ hk) (by omega) (by omega) hc rfl fun i j => ?_
  obtain ⟨h0, h1⟩ := hM i j
  exact ⟨h0, by omega⟩

/-- A successful completion: `STATUS` as R125 says, and no fault mark. -/
theorem complete_ok_status (s : State) (eff : List ResultWrite) :
    s.CompletedOk (complete s (.ok eff)) ∧ (complete s (.ok eff)).fault = s.fault := by
  obtain ⟨-, -, -, -, herr, hcode, harg, hfault⟩ := applyWrites_frame s eff
  exact ⟨⟨rfl, rfl, rfl, herr, hcode, harg⟩, hfault⟩

/-- A command that succeeds with one matrix of residues leaves it in its slot. -/
theorem exec_stores {s : State} {i : Instr} {dst r c : Nat} {M : Mat} (hinv : s.Inv) (hm : s.ModulusLegal)
    (hdst : dst < s.params.nslot) (hr : r ≤ s.params.nmax) (hc : c ≤ s.params.nmax)
    (hres : resultOf i s = .ok [.slot dst r c M]) (hM : InRange (uint32 s.mod) (matrixOf r c M)) :
    ∃ t, exec i s = .next t ∧ s.CompletedOk t ∧ t.fault = s.fault ∧ t.SlotWritten dst r c (matrixOf r c M) := by
  obtain ⟨hlegal, -, hshapes, -⟩ := s.inv_iff.mp hinv
  obtain ⟨hstatus, hfault⟩ := complete_ok_status s [.slot dst r c M]
  exact ⟨_, hres ▸ exec_eq i s, hstatus, hfault, slotWritten_of_inRange hlegal hshapes hm.2 hdst hr hc hM⟩

/-- A command that succeeds with two matrices of residues for different slots leaves each in its slot. -/
theorem exec_stores_two {s : State} {i : Instr} {dst dst2 r c r2 c2 : Nat} {M N : Mat} (hinv : s.Inv)
    (hm : s.ModulusLegal) (hdst : dst < s.params.nslot) (hdst2 : dst2 < s.params.nslot) (hne : dst ≠ dst2)
    (hr : r ≤ s.params.nmax) (hc : c ≤ s.params.nmax) (hr2 : r2 ≤ s.params.nmax) (hc2 : c2 ≤ s.params.nmax)
    (hres : resultOf i s = .ok [.slot dst r c M, .slot dst2 r2 c2 N])
    (hM : InRange (uint32 s.mod) (matrixOf r c M)) (hN : InRange (uint32 s.mod) (matrixOf r2 c2 N)) :
    ∃ t, exec i s = .next t ∧ s.CompletedOk t ∧ t.fault = s.fault ∧ t.SlotWritten dst r c (matrixOf r c M) ∧
      t.SlotWritten dst2 r2 c2 (matrixOf r2 c2 N) := by
  obtain ⟨hlegal, -, hshapes, -⟩ := s.inv_iff.mp hinv
  obtain ⟨hstatus, hfault⟩ := complete_ok_status s [.slot dst r c M, .slot dst2 r2 c2 N]
  have hfirst := slotWritten_of_inRange hlegal hshapes hm.2 hdst hr hc hM
  have hshapes1 : (applyWrite s (.slot dst r c M)).shapes.length = s.params.nslot := by simpa using hshapes
  exact ⟨_, hres ▸ exec_eq i s, hstatus, hfault, slotWritten_of_write_other hne hr hc hr2 hc2 hfirst,
    slotWritten_of_inRange (s := applyWrite s (.slot dst r c M)) hlegal hshapes1 hm.2 hdst2 hr2 hc2 hN⟩

/-! ### ADJ and INV -/

/-- ADJ on a square source stores a matrix congruent to the adjugate (42_matrix.md R163). -/
theorem exec_adj_stores {s : State} {a dst n : Nat} {A : Matrix (Fin n) (Fin n) ℤ} (hinv : s.Inv) (hm : s.ModulusLegal)
    (hA : s.SlotHolds a n n A) (hdst : dst < s.params.nslot) :
    ∃ (t : State) (B : Matrix (Fin n) (Fin n) ℤ), exec (.adj a dst) s = .next t ∧ s.CompletedOk t ∧ t.fault = s.fault ∧
      t.SlotWritten dst n n B ∧ InRange (uint32 s.mod) B ∧ EqMod (uint32 s.mod) B A.adjugate := by
  obtain ⟨X, hX, hres⟩ := adjResult_of_holds (dst := dst) hm hA hdst
  obtain ⟨-, -, hn, -⟩ := hA
  have hrange := inRange_adjMod hm.1 n X
  obtain ⟨t, hexec, hstatus, hfault, hwritten⟩ := exec_stores (i := .adj a dst) hinv hm hdst hn hn hres hrange
  exact ⟨t, _, hexec, hstatus, hfault, hwritten, hrange, eqMod_adjMod hX⟩

/-- INV on a square source with an invertible determinant stores a two-sided inverse mod m (42_matrix.md R166). -/
theorem exec_inv_stores {s : State} {a dst n : Nat} {A : Matrix (Fin n) (Fin n) ℤ} (hinv : s.Inv) (hm : s.ModulusLegal)
    (hA : s.SlotHolds a n n A) (hdst : dst < s.params.nslot) (hunit : Int.gcd A.det (uint32 s.mod) = 1) :
    ∃ (t : State) (B : Matrix (Fin n) (Fin n) ℤ), exec (.inv a dst) s = .next t ∧ s.CompletedOk t ∧ t.fault = s.fault ∧
      t.SlotWritten dst n n B ∧ InRange (uint32 s.mod) B ∧ EqMod (uint32 s.mod) (A * B) 1 ∧
      EqMod (uint32 s.mod) (B * A) 1 := by
  obtain ⟨X, hX, hres⟩ := invResult_of_holds (dst := dst) hm hA hdst
  obtain ⟨-, -, hn, -⟩ := hA
  have hgcd : gcdMod (uint32 s.mod) (detMod (uint32 s.mod) n X) = 1 := (gcdMod_detMod_of_eqMod hX).trans hunit
  rw [checkUnit_ok _ hgcd] at hres
  have hrange := inRange_inverseMod hm.1 n X
  obtain ⟨t, hexec, hstatus, hfault, hwritten⟩ := exec_stores (i := .inv a dst) hinv hm hdst hn hn hres hrange
  obtain ⟨hright, hleft⟩ := mul_inverseMod hm.1 X hgcd
  exact ⟨t, _, hexec, hstatus, hfault, hwritten, hrange, (hX.symm.mul (.refl _ _)).trans hright,
    ((EqMod.refl _ _).mul hX.symm).trans hleft⟩

/-- Settles O44: `A·adj(A)` and `adj(A)·A` are `det(A)·I`, and congruent factors have congruent products. -/
theorem adjugateAndInverseProperties : Obligations.AdjugateAndInverseProperties := by
  intro s a dst n A hinv hm hA hdst
  refine ⟨?adjugate, fun hunit => ?inverse⟩
  case adjugate =>
    obtain ⟨t, B, hexec, -, -, hwritten, -, hB⟩ := exec_adj_stores hinv hm hA hdst
    have hright := (EqMod.refl (uint32 s.mod) A).mul hB
    have hleft := hB.mul (EqMod.refl (uint32 s.mod) A)
    rw [Matrix.mul_adjugate] at hright
    rw [Matrix.adjugate_mul] at hleft
    exact ⟨t, B, hexec, hwritten, hright, hleft⟩
  case inverse =>
    obtain ⟨t, B, hexec, -, -, hwritten, -, hright, -⟩ := exec_inv_stores hinv hm hA hdst hunit
    exact ⟨t, B, hexec, hwritten, hright⟩

end Sys2Proof.Machine
end

section
/-! Proofs: the modulus 1, where every residue is 0 and every element is invertible (40_command_model.md R141). -/

namespace Sys2Proof.Machine

/-! ### Arithmetic mod 1 -/

@[simp] theorem gcdMod_one (x : Int) : gcdMod 1 x = 1 := by
  simp [gcdMod]

@[simp] theorem invMod_one (x : Int) : invMod 1 x = 0 := by
  simp [invMod]

@[simp] theorem detMod_one (n : Nat) (A : Mat) : detMod 1 n A = 0 := by
  simp [detMod]

@[simp] theorem checkUnit_one (n : Nat) (M : Mat) (arg : ErrArg) : checkUnit 1 n M arg = .ok () :=
  checkUnit_ok arg (gcdMod_one _)

theorem eq_zero_of_inRange_one {r c : Nat} {B : Matrix (Fin r) (Fin c) ℤ} (h : InRange 1 B) : B = 0 := by
  funext i j
  obtain ⟨h0, h1⟩ := h i j
  rw [Matrix.zero_apply]
  omega

theorem modulusLegal_of_one {s : State} (hm : uint32 s.mod = 1) : s.ModulusLegal := by
  rw [State.ModulusLegal, hm]
  decide

/-! ### Results -/

theorem sinvResult_of_one {s : State} (hm : uint32 s.mod = 1) : sinvResult s = .ok [.scalarR 0] := by
  rw [sinvResult, commonPrefix_ok (by simp) rfl (modulusLegal_of_one hm) (by simp), hm]
  simp

theorem sgcdResult_of_one {s : State} (hm : uint32 s.mod = 1) : sgcdResult s = .ok [.scalarR 1] := by
  rw [sgcdResult, commonPrefix_ok (by simp) rfl (modulusLegal_of_one hm) (by simp), hm]
  simp

section
variable {s : State} {a n : Nat} {A : Matrix (Fin n) (Fin n) ℤ}

theorem exec_det_one (hm : uint32 s.mod = 1) (hA : s.SlotHolds a n n A) :
    exec (.det a) s = .next { s with detR := 0#32, busy := false, done := true, pending := none } := by
  obtain ⟨X, -, hres⟩ := detResult_of_holds (modulusLegal_of_one hm) hA
  rw [hm, detMod_one] at hres
  rw [exec_eq, resultOf, hres]
  rfl

theorem exec_adj_one (hinv : s.Inv) (hm : uint32 s.mod = 1) (hA : s.SlotHolds a n n A) {dst : Nat}
    (hdst : dst < s.params.nslot) : ∃ t, exec (.adj a dst) s = .next t ∧ s.CompletedOk t ∧ t.SlotWritten dst n n 0 := by
  obtain ⟨t, B, hexec, hstatus, -, hwritten, hrange, -⟩ := exec_adj_stores hinv (modulusLegal_of_one hm) hA hdst
  rw [hm] at hrange
  exact ⟨t, hexec, hstatus, eq_zero_of_inRange_one hrange ▸ hwritten⟩

theorem exec_inv_one (hinv : s.Inv) (hm : uint32 s.mod = 1) (hA : s.SlotHolds a n n A) {dst : Nat}
    (hdst : dst < s.params.nslot) : ∃ t, exec (.inv a dst) s = .next t ∧ s.CompletedOk t ∧ t.SlotWritten dst n n 0 := by
  have hunit : Int.gcd A.det (uint32 s.mod) = 1 := by rw [hm]; exact gcdMod_one _
  obtain ⟨t, B, hexec, hstatus, -, hwritten, hrange, -⟩ := exec_inv_stores hinv (modulusLegal_of_one hm) hA hdst hunit
  rw [hm] at hrange
  exact ⟨t, hexec, hstatus, eq_zero_of_inRange_one hrange ▸ hwritten⟩

theorem exec_solveLin_one (hinv : s.Inv) (hm : uint32 s.mod = 1) (hA : s.SlotHolds a n n A) {b dst : Nat}
    {B : Matrix (Fin n) (Fin n) ℤ} (hB : s.SlotHolds b n n B) (hdst : dst < s.params.nslot) :
    ∃ t, exec (.solveLin a b dst) s = .next t ∧ s.CompletedOk t ∧ t.SlotWritten dst n n 0 := by
  have hlegal := modulusLegal_of_one hm
  obtain ⟨X, Y, -, -, hres⟩ := solveLinResult_of_holds hlegal hA hB hdst
  obtain ⟨-, -, hn, -⟩ := hA
  rw [checkUnit_ok _ (by rw [hm, gcdMod_one]), checkUnit_ok _ (by rw [hm, gcdMod_one])] at hres
  have hK := inRange_mulMod hm.ge n (inverseMod (uint32 s.mod) n X) Y
  obtain ⟨t, hexec, hstatus, -, hwritten⟩ := exec_stores (i := .solveLin a b dst) hinv hlegal hdst hn hn hres hK
  rw [hm] at hK hwritten
  exact ⟨t, hexec, hstatus, eq_zero_of_inRange_one hK ▸ hwritten⟩

theorem exec_solveAff_one (hinv : s.Inv) (hm : uint32 s.mod = 1) (hA : s.SlotHolds a n n A) {b c d dst dst2 : Nat}
    {B C D : Matrix (Fin n) (Fin n) ℤ} (hB : s.SlotHolds b n n B) (hC : s.SlotHolds c n n C) (hD : s.SlotHolds d n n D)
    (hdst : dst < s.params.nslot) (hdst2 : dst2 < s.params.nslot) (hne : dst ≠ dst2) :
    ∃ t, exec (.solveAff a b c d dst dst2) s = .next t ∧ s.CompletedOk t ∧ t.SlotWritten dst n n 0 ∧
      t.SlotWritten dst2 1 n 0 := by
  have hlegal := modulusLegal_of_one hm
  obtain ⟨W, X, Y, Z, -, -, -, -, hres⟩ := solveAffResult_of_holds hlegal hA hB hC hD hdst hdst2 hne
  obtain ⟨-, hpos, hn, -⟩ := hA
  rw [checkUnit_ok _ (by rw [hm, gcdMod_one]), checkUnit_ok _ (by rw [hm, gcdMod_one])] at hres
  have hL := inRange_mulMod hm.ge n (inverseMod (uint32 s.mod) n (subMod (uint32 s.mod) n W X))
    (subMod (uint32 s.mod) n Y Z)
  have hv := inRange_subMod hm.ge hpos Y (mulMod (uint32 s.mod) n W (mulMod (uint32 s.mod) n
    (inverseMod (uint32 s.mod) n (subMod (uint32 s.mod) n W X)) (subMod (uint32 s.mod) n Y Z)))
  obtain ⟨t, hexec, hstatus, -, hwritten, hwritten2⟩ := exec_stores_two (i := .solveAff a b c d dst dst2) hinv hlegal
    hdst hdst2 hne hn hn (hpos.trans hn) hn hres hL hv
  rw [hm] at hL hv hwritten hwritten2
  exact ⟨t, hexec, hstatus, eq_zero_of_inRange_one hL ▸ hwritten, eq_zero_of_inRange_one hv ▸ hwritten2⟩

end

/-! ### No SINGULAR and no NO_INVERSE -/

/-- A part of a command that never stops with `SINGULAR` or `NO_INVERSE`. -/
def NeverSingular {α : Type} (x : Except CmdStop α) : Prop :=
  ∀ code arg, x = .error (.err code arg) → errCodeBits code ≠ 2#8 ∧ errCodeBits code ≠ 3#8

theorem NeverSingular.bind {α β : Type} {x : Except CmdStop α} {f : α → Except CmdStop β} (hx : NeverSingular x)
    (hf : ∀ a, x = .ok a → NeverSingular (f a)) : NeverSingular (x >>= f) := by
  cases x with
  | error e => exact fun code arg h => hx code arg (congrArg Except.error (Except.error.inj h))
  | ok a => exact hf a rfl

theorem NeverSingular.ok {α : Type} (a : α) : NeverSingular (.ok a : Except CmdStop α) := fun _ _ h => nomatch h

theorem NeverSingular.err {α : Type} {code : ErrCode} (hcode : errCodeBits code ≠ 2#8 ∧ errCodeBits code ≠ 3#8)
    (arg : ErrArg) : NeverSingular (.error (.err code arg) : Except CmdStop α) := by
  rintro code' arg' h
  cases h
  exact hcode

theorem require_neverSingular {code : ErrCode} (hcode : errCodeBits code ≠ 2#8 ∧ errCodeBits code ≠ 3#8)
    (ok : Bool) (arg : ErrArg) : NeverSingular (require ok (.err code arg)) := by
  cases ok with
  | true => exact .ok ()
  | false => exact .err hcode arg

theorem checkSlots_neverSingular (s : State) (l : List (SlotIdx × ErrArg)) : NeverSingular (checkSlots s l) := by
  induction l with
  | nil => exact .ok ()
  | cons p rest ih =>
    rw [checkSlots]
    split
    · exact .err (by decide) _
    · exact ih

theorem checkShapes_neverSingular (s : State) (l : List (SlotIdx × ErrArg)) : NeverSingular (checkShapes s l) := by
  induction l with
  | nil => exact .ok ()
  | cons p rest ih =>
    rw [checkShapes]
    split
    · exact ih
    · exact .err (by decide) _

theorem checkModulus_neverSingular (s : State) : NeverSingular (checkModulus s) := by
  rw [checkModulus]
  split
  · exact .ok _
  · exact .err (by decide) _

theorem commonPrefix_neverSingular (s : State) (slots sources : List (SlotIdx × ErrArg)) (rule : Bool) :
    NeverSingular (commonPrefix s slots sources rule) :=
  (checkSlots_neverSingular s slots).bind fun _ _ => (require_neverSingular (by decide) rule .dst2).bind fun _ _ =>
    (checkModulus_neverSingular s).bind fun _ _ => (checkShapes_neverSingular s sources).bind fun _ _ => .ok _

theorem readOperand_neverSingular (s : State) (m : Nat) (k : SlotIdx) : NeverSingular (readOperand s m k) := by
  rw [readOperand, readBlock]
  split
  · exact .ok _
  · exact fun _ _ h => nomatch h

theorem checkSquare_neverSingular (A : Operand) : NeverSingular (checkSquare A) :=
  require_neverSingular (by decide) _ _

theorem checkDim_neverSingular (n : Nat) (B : Operand) (arg : ErrArg) : NeverSingular (checkDim n B arg) :=
  require_neverSingular (by decide) _ _

theorem checkUnit_neverSingular {m : Nat} (hm : m = 1) (n : Nat) (M : Mat) (arg : ErrArg) :
    NeverSingular (checkUnit m n M arg) := by
  rw [hm, checkUnit_one]
  exact .ok ()

/-- With the modulus 1 every gcd test passes, and the other checks raise other errors. -/
theorem resultOf_neverSingular {s : State} (hm : uint32 s.mod = 1) (i : Instr) : NeverSingular (resultOf i s) := by
  have hone : ∀ {slots sources rule m}, commonPrefix s slots sources rule = .ok m → m = 1 := fun h => by
    obtain ⟨-, -, -, heq, -⟩ := commonPrefix_eq_ok h
    rw [heq, hm]
  cases i with
  | sinv =>
    refine (commonPrefix_neverSingular _ _ _ _).bind fun m h => ?_
    rw [hone h, gcdMod_one]
    exact .ok _
  | sgcd => exact (commonPrefix_neverSingular _ _ _ _).bind fun _ _ => .ok _
  | det a | adj a dst =>
    exact (commonPrefix_neverSingular _ _ _ _).bind fun _ _ => (readOperand_neverSingular _ _ _).bind fun _ _ =>
      (checkSquare_neverSingular _).bind fun _ _ => .ok _
  | inv a dst =>
    exact (commonPrefix_neverSingular _ _ _ _).bind fun _ h => (readOperand_neverSingular _ _ _).bind fun _ _ =>
      (checkSquare_neverSingular _).bind fun _ _ => (checkUnit_neverSingular (hone h) _ _ _).bind fun _ _ => .ok _
  | solveLin a b dst =>
    exact (commonPrefix_neverSingular _ _ _ _).bind fun _ h => (readOperand_neverSingular _ _ _).bind fun _ _ =>
      (readOperand_neverSingular _ _ _).bind fun _ _ => (checkSquare_neverSingular _).bind fun _ _ =>
      (checkDim_neverSingular _ _ _).bind fun _ _ => (checkUnit_neverSingular (hone h) _ _ _).bind fun _ _ =>
      (checkUnit_neverSingular (hone h) _ _ _).bind fun _ _ => .ok _
  | solveAff a b c d dst dst2 =>
    exact (commonPrefix_neverSingular _ _ _ _).bind fun _ h => (readOperand_neverSingular _ _ _).bind fun _ _ =>
      (readOperand_neverSingular _ _ _).bind fun _ _ => (readOperand_neverSingular _ _ _).bind fun _ _ =>
      (readOperand_neverSingular _ _ _).bind fun _ _ => (checkSquare_neverSingular _).bind fun _ _ =>
      (checkDim_neverSingular _ _ _).bind fun _ _ => (checkDim_neverSingular _ _ _).bind fun _ _ =>
      (checkDim_neverSingular _ _ _).bind fun _ _ => (checkUnit_neverSingular (hone h) _ _ _).bind fun _ _ =>
      (checkUnit_neverSingular (hone h) _ _ _).bind fun _ _ => .ok _

/-- Settles O50: mod 1 every gcd test passes, and the residues that are stored can only be 0. -/
theorem modulusOneGivesZero : Obligations.ModulusOneGivesZero := by
  intro s hinv hmod
  have hm : uint32 s.mod = 1 := by rw [hmod]; rfl
  refine ⟨?sinv, ?sgcd, fun a n A hA => ⟨exec_det_one hm hA, fun dst hdst =>
    ⟨exec_adj_one hinv hm hA hdst, exec_inv_one hinv hm hA hdst, fun b B hB => ⟨exec_solveLin_one hinv hm hA hB hdst,
      fun c d dst2 C D hC hD hdst2 hne => exec_solveAff_one hinv hm hA hB hC hD hdst hdst2 hne⟩⟩⟩,
    fun i t hexec herr hfailed => ?codes⟩
  case sinv =>
    rw [exec_eq, resultOf, sinvResult_of_one hm]
    rfl
  case sgcd =>
    rw [exec_eq, resultOf, sgcdResult_of_one hm]
    rfl
  case codes =>
    obtain ⟨code, arg, hres, rfl⟩ := exec_new_error hexec herr hfailed
    exact resultOf_neverSingular hm i code arg hres

end Sys2Proof.Machine
end

section
/-! Proofs: the scalar commands SINV and SGCD (41_scalar.md R150, R152). Each of their outcomes is one equation of `exec`; their
frame and the values they write follow from these. -/

namespace Sys2Proof.Machine

/-! ### The outcomes -/

/-- A command without slot fields passes every slot check. -/
theorem slotsPass_of_scalar {i : Instr} (hi : i = .sinv ∨ i = .sgcd) (s : State) : s.SlotsPass i := by
  obtain rfl | rfl := hi <;> exact ⟨List.forall_mem_nil _, rfl⟩

/-- An illegal modulus stops a scalar command, which has no slot check before it (40_command_model.md R129). -/
theorem exec_scalar_of_badModulus {i : Instr} {s : State} (hi : i = .sinv ∨ i = .sgcd) (hm : ¬ s.ModulusLegal) :
    exec i s = .next (s.failedWith 5#8 0#4) :=
  badModulusIsReported i s (slotsPass_of_scalar hi s) (by
    rw [State.ModulusLegal] at hm
    omega)

/-- With a legal modulus a scalar command passes its whole prefix, as it has no slot and no source. -/
theorem commonPrefix_of_scalar {s : State} (hm : s.ModulusLegal) : commonPrefix s [] [] true = .ok (uint32 s.mod) :=
  commonPrefix_ok (List.forall_mem_nil _) rfl hm (List.forall_mem_nil _)

theorem exec_sinv_of_coprime {s : State} (hm : s.ModulusLegal) (hg : Int.gcd (sint32 s.scalarA) (uint32 s.mod) = 1) :
    exec .sinv s = .next { s with
      scalarR := word32 (invMod (uint32 s.mod) (scalarOperand s (uint32 s.mod)))
      busy := false, done := true, pending := none } := by
  have hres : resultOf .sinv s = .ok [.scalarR (invMod (uint32 s.mod) (scalarOperand s (uint32 s.mod)))] := by
    simp [resultOf, sinvResult, commonPrefix_of_scalar hm, gcdMod_scalarOperand, hg]
  rw [exec_eq, hres]
  rfl

theorem exec_sinv_of_not_coprime {s : State} (hm : s.ModulusLegal)
    (hg : Int.gcd (sint32 s.scalarA) (uint32 s.mod) ≠ 1) : exec .sinv s = .next (s.failedWith 3#8 0#4) := by
  have hres : resultOf .sinv s = .error (.err .noInverse .none) := by
    simp [resultOf, sinvResult, commonPrefix_of_scalar hm, gcdMod_scalarOperand, hg]
  rw [exec_eq, hres]
  rfl

/-- The gcd of the reduced operand is that of the operand as it is read. -/
theorem exec_sgcd_of_legal {s : State} (hm : s.ModulusLegal) :
    exec .sgcd s = .next { s with
      scalarR := word32 (Int.gcd (sint32 s.scalarA) (uint32 s.mod)), busy := false, done := true, pending := none } := by
  have hres : resultOf .sgcd s = .ok [.scalarR (Int.gcd (sint32 s.scalarA) (uint32 s.mod))] := by
    simp [resultOf, sgcdResult, commonPrefix_of_scalar hm, gcdMod_scalarOperand]
  rw [exec_eq, hres]
  rfl

/-! ### The frame -/

/-- Everything a scalar command can do: it completes with a word in `SCALAR_R`, or with an error. -/
theorem exec_scalar_cases {i : Instr} (hi : i = .sinv ∨ i = .sgcd) (s : State) :
    (∃ v, exec i s = .next { s with scalarR := v, busy := false, done := true, pending := none }) ∨
    (∃ code arg, exec i s = .next (s.failedWith code arg)) := by
  by_cases hm : s.ModulusLegal
  · obtain rfl | rfl := hi
    · by_cases hg : Int.gcd (sint32 s.scalarA) (uint32 s.mod) = 1
      · exact .inl ⟨_, exec_sinv_of_coprime hm hg⟩
      · exact .inr ⟨_, _, exec_sinv_of_not_coprime hm hg⟩
    · exact .inl ⟨_, exec_sgcd_of_legal hm⟩
  · exact .inr ⟨_, _, exec_scalar_of_badModulus hi hm⟩

/-- Settles O29: neither kind of completion writes more than `SCALAR_R`, `STATUS` and the latch. -/
theorem scalarCommandsFrame : Obligations.ScalarCommandsFrame := by
  intro i s t hi hexec
  obtain ⟨v, h⟩ | ⟨code, arg, h⟩ := exec_scalar_cases hi s
  · rw [Host.Outcome.next.inj (hexec.symm.trans h)]
    simp [State.SameControl]
  · rw [Host.Outcome.next.inj (hexec.symm.trans h)]
    simp [State.SameControl]

/-! ### The values -/

/-- What SINV writes is an inverse of the operand as it is read, which is congruent to the reduced one (40_command_model.md
R130, R134). -/
theorem invMod_scalarOperand {s : State} (hm : s.ModulusLegal)
    (hg : Int.gcd (sint32 s.scalarA) (uint32 s.mod) = 1) :
    0 ≤ invMod (uint32 s.mod) (scalarOperand s (uint32 s.mod)) ∧
    invMod (uint32 s.mod) (scalarOperand s (uint32 s.mod)) < uint32 s.mod ∧
    sint32 s.scalarA * invMod (uint32 s.mod) (scalarOperand s (uint32 s.mod)) % uint32 s.mod = 1 % uint32 s.mod := by
  obtain ⟨hnonneg, hlt⟩ := scalarOperand_range hm
  obtain ⟨hpos, -⟩ := hm
  obtain ⟨h0, h1, hinv⟩ := invMod_spec hpos hnonneg hlt ((gcdMod_scalarOperand s _).trans hg)
  exact ⟨h0, h1, ((Int.mod_modEq _ _).mul_right _).symm.trans hinv⟩

/-- Settles O39: the inverse written is the only one in [0, m), and each other case ends with its error. -/
theorem sinvGivesTheInverse : Obligations.SinvGivesTheInverse := by
  refine ⟨fun w hop => decodeWord_of_fields hop rfl, fun s => ⟨fun hm hg => ?inverse, exec_sinv_of_not_coprime,
    exec_scalar_of_badModulus (.inl rfl)⟩⟩
  case inverse =>
    obtain ⟨h0, h1, hinv⟩ := invMod_scalarOperand hm hg
    exact ⟨_, ⟨h0, h1, hinv⟩, fun y hy0 hy1 hy => inverse_unique ⟨hy0, hy1⟩ ⟨h0, h1⟩ hy hinv,
      exec_sinv_of_coprime hm hg⟩

/-- Settles O40: a legal modulus is not 0, so the gcd is at least 1 and at most the modulus. -/
theorem sgcdGivesTheGcd : Obligations.SgcdGivesTheGcd := by
  refine ⟨fun w hop => decodeWord_of_fields hop rfl, fun s => ⟨fun hm => ?gcd, exec_scalar_of_badModulus (.inr rfl)⟩⟩
  case gcd =>
    have ⟨hpos, _⟩ := hm
    exact ⟨Nat.gcd_pos_of_pos_right _ hpos, Nat.gcd_le_right _ hpos, exec_sgcd_of_legal hm⟩

end Sys2Proof.Machine
end

section
/-! Proofs: what DET, ADJ, INV and SOLVE_LIN leave unchanged (42_matrix.md R160, R163, R166, 43_solver.md R180). A command
that stops writes no result, and one that succeeds writes what its `Exec` lists. -/

namespace Sys2Proof.Machine

/-! ### What a completion leaves unchanged -/

/-- A command that stops, by an error or the model's fault, writes no result (40_command_model.md R125, R127). -/
theorem complete_error_keeps_results (s : State) (stop : CmdStop) :
    (complete s (.error stop)).scalarR = s.scalarR ∧ (complete s (.error stop)).detR = s.detR ∧
      (complete s (.error stop)).shapes = s.shapes ∧ (complete s (.error stop)).mem = s.mem := by
  cases stop with
  | err code arg => exact ⟨rfl, rfl, rfl, rfl⟩
  | fault f => exact ⟨rfl, rfl, rfl, rfl⟩

/-- A matrix written to slot `k` touches that slot's shape and the bytes of its entries, and nothing else
(40_command_model.md R126). -/
theorem applyWrite_slot_frame (s : State) (k r c : Nat) (M : Mat) :
    (applyWrite s (.slot k r c M)).scalarR = s.scalarR ∧ (applyWrite s (.slot k r c M)).detR = s.detR ∧
      (applyWrite s (.slot k r c M)).shapes.length = s.shapes.length ∧
      (∀ k', k' ≠ k → shapeAt (applyWrite s (.slot k r c M)) k' = shapeAt s k') ∧
      ∀ x, ¬ StoredByte s.params.nmax k r c x → (applyWrite s (.slot k r c M)).mem.read x = s.mem.read x :=
  ⟨rfl, rfl, List.length_set, fun _ hne => shapeAt_setShape_other _ hne, fun _ hx => read_writeBlock_other M hx⟩

/-! ### The frames -/

/-- Settles O30: only a success writes a result, and DET's is `DET_R` alone. -/
theorem detFrame : Obligations.DetFrame := by
  intro a s t hexec
  rw [exec_next hexec]
  obtain ⟨hcontrol, -⟩ := complete_frame s (resultOf (.det a) s)
  refine ⟨hcontrol, ?_⟩
  cases hres : resultOf (.det a) s with
  | error stop =>
    obtain ⟨hscalar, -, hshapes, hmem⟩ := complete_error_keeps_results s stop
    exact ⟨hscalar, hshapes, fun x => by rw [hmem]⟩
  | ok eff =>
    obtain ⟨-, -, -, -, X, -, rfl⟩ := detResult_eq_ok hres
    exact ⟨rfl, rfl, fun _ => rfl⟩

/-- ADJ, INV and SOLVE_LIN succeed with one square matrix for `DST`, as large as source A. -/
theorem resultOf_storesSquare {i : Instr} {a dst : SlotIdx} {s : State} {eff : List ResultWrite}
    (hi : i = .adj a dst ∨ i = .inv a dst ∨ ∃ b, i = .solveLin a b dst) (h : resultOf i s = .ok eff) :
    StoresSquare s a dst eff := by
  obtain rfl | rfl | ⟨b, rfl⟩ := hi
  · exact adjResult_eq_ok h
  · exact invResult_eq_ok h
  · exact solveLinResult_eq_ok h

/-- Settles O31: only a success writes a result, and it is one matrix in `DST`. -/
theorem oneSlotCommandsFrame : Obligations.OneSlotCommandsFrame := by
  intro i a dst s t hi hexec
  rw [exec_next hexec]
  obtain ⟨hcontrol, -⟩ := complete_frame s (resultOf i s)
  refine ⟨hcontrol, ?_⟩
  cases hres : resultOf i s with
  | error stop =>
    obtain ⟨hscalar, hdet, hshapes, hmem⟩ := complete_error_keeps_results s stop
    exact ⟨hscalar, hdet, by rw [hshapes], fun k _ => by rw [shapeAt, hshapes, shapeAt], fun x _ => by rw [hmem]⟩
  | ok eff =>
    obtain ⟨-, -, -, M, rfl⟩ := resultOf_storesSquare hi hres
    exact applyWrite_slot_frame s dst _ _ M

end Sys2Proof.Machine
end

section
/-! Proofs: the checks on source A of a matrix or solver command, NOT_SQUARE and SINGULAR (42_matrix.md R160, R163, R166,
R167; 43_solver.md R180, R184; 60_exceptions.md R203). -/

namespace Sys2Proof.Machine

/-- A command whose `Exec` stops with an error completes with that error (40_command_model.md R125). -/
theorem exec_of_error {i : Instr} {s : State} {code : ErrCode} {arg : ErrArg}
    (h : resultOf i s = .error (.err code arg)) :
    exec i s = .next (s.failedWith (errCodeBits code) (errArgBits arg)) := by
  rw [exec_eq, h, complete_err]

/-! ### NOT_SQUARE -/

theorem checkSquare_bad {X : Operand} (h : X.rows ≠ X.cols) : checkSquare X = .error (.err .notSquare .a) := by
  simp [checkSquare, h]

/-- Slot `k` holds a matrix of some legal shape. -/
def State.HoldsMatrix (s : State) (k : SlotIdx) : Prop :=
  ∃ (r c : Nat) (A : Matrix (Fin r) (Fin c) ℤ), s.SlotHolds k r c A

theorem State.SlotHolds.holdsMatrix {s : State} {k r c : Nat} {A : Matrix (Fin r) (Fin c) ℤ} (h : s.SlotHolds k r c A) :
    s.HoldsMatrix k := ⟨r, c, A, h⟩

theorem State.HoldsMatrix.read {s : State} {k : SlotIdx} (h : s.HoldsMatrix k) (m : Nat) :
    ∃ X, readOperand s m k = .ok X := by
  obtain ⟨r, c, A, hA⟩ := h
  obtain ⟨X, hX, -⟩ := readOperand_of_holds m hA
  exact ⟨_, hX⟩

theorem State.HoldsMatrix.shapeLegal {s : State} {k : SlotIdx} (h : s.HoldsMatrix k) : s.ShapeLegal k := by
  obtain ⟨r, c, A, hA⟩ := h
  exact legalShape_iff.mp (legalShape_of_holds hA)

/-- Reading a source that holds a matrix does not stop a command. -/
theorem readOperand_then_error {s : State} {k : SlotIdx} (hk : s.HoldsMatrix k) {m : Nat} {stop : CmdStop}
    {f : Operand → CmdResult} (h : ∀ X, f X = .error stop) : (readOperand s m k >>= f) = .error stop := by
  obtain ⟨X, hX⟩ := hk.read m
  rw [hX, except_ok_bind, h X]

/-- With its slot fields and modulus good and matrices in its sources, a command whose source A is not square stops there:
A is its first source, and its squareness is the first check after the sources are read (60_exceptions.md R203). -/
theorem exec_of_notSquare {i : Instr} {s : State} {a r c : Nat} {A : Matrix (Fin r) (Fin c) ℤ} (hm : s.ModulusLegal)
    (hA : s.SlotHolds a r c A) (hrc : r ≠ c) (hslots : s.SlotsPass i) (hfirst : (sourceArgs i).head? = some (a, 1#4))
    (hheld : ∀ p ∈ sourceArgs i, s.HoldsMatrix p.1) : exec i s = .next (s.failedWith 1#8 1#4) := by
  have hprefix : ∀ f : Nat → CmdResult,
      (commonPrefix s (slotFields i) (sourceFields i) (destsDiffer i) >>= f) = f (uint32 s.mod) := fun f => by
    rw [commonPrefix_passes hslots hm fun p hp => (hheld p hp).shapeLegal, except_ok_bind]
  obtain ⟨X, hX, -⟩ := readOperand_of_holds (uint32 s.mod) hA
  have hread : ∀ f : Operand → CmdResult, (readOperand s (uint32 s.mod) a >>= f) = f ⟨r, c, X⟩ := fun f => by
    rw [hX, except_ok_bind]
  have hsquare : ∀ f : Unit → CmdResult, (checkSquare ⟨r, c, X⟩ >>= f) = .error (.err .notSquare .a) :=
    bind_of_error (checkSquare_bad hrc)
  have hstop : resultOf i s = .error (.err .notSquare .a) := by
    cases i with
    | sinv | sgcd => cases hfirst
    | det a' | adj a' dst | inv a' dst =>
      cases hfirst
      exact (hprefix _).trans ((hread _).trans (hsquare _))
    | solveLin a' b dst =>
      cases hfirst
      have hB := hheld (b, 2#4) (by simp [sourceArgs])
      exact (hprefix _).trans ((hread _).trans (readOperand_then_error hB fun _ => hsquare _))
    | solveAff a' b c' d dst dst2 =>
      cases hfirst
      have hB := hheld (b, 2#4) (by simp [sourceArgs])
      have hC := hheld (c', 3#4) (by simp [sourceArgs])
      have hD := hheld (d, 4#4) (by simp [sourceArgs])
      exact (hprefix _).trans ((hread _).trans (readOperand_then_error hB fun _ => readOperand_then_error hC fun _ =>
        readOperand_then_error hD fun _ => hsquare _))
  exact exec_of_error hstop

/-- Settles O37: in each of the five commands A is the first source. -/
theorem notSquareIsReported : Obligations.NotSquareIsReported := by
  intro s a r c A hm hA hrc
  have ⟨ha, _⟩ := hA
  have hheldA := hA.holdsMatrix
  have hstop {i : Instr} := exec_of_notSquare (i := i) hm hA hrc
  refine ⟨?det, fun dst hdst => ⟨?adj, ?inv, fun b rB cB B hB => ?solvers⟩⟩
  case det =>
    exact hstop (by simpa [State.SlotsPass, slotArgs, destsDiffer] using ha) rfl
      (by simpa [sourceArgs] using hheldA)
  case adj | inv =>
    exact hstop (by simpa [State.SlotsPass, slotArgs, destsDiffer] using ⟨ha, hdst⟩) rfl
      (by simpa [sourceArgs] using hheldA)
  case solvers =>
    have ⟨hb, _⟩ := hB
    have hheldB := hB.holdsMatrix
    refine ⟨?solveLin, fun dst2 y rC cC z rD cD C D hdst2 hne hC hD => ?solveAff⟩
    case solveLin =>
      exact hstop (by simpa [State.SlotsPass, slotArgs, destsDiffer] using ⟨ha, hb, hdst⟩) rfl
        (by simpa [sourceArgs] using ⟨hheldA, hheldB⟩)
    case solveAff =>
      have ⟨hy, _⟩ := hC
      have ⟨hz, _⟩ := hD
      exact hstop (by simpa [State.SlotsPass, slotArgs, destsDiffer] using ⟨⟨ha, hb, hy, hz, hdst, hdst2⟩, hne⟩) rfl
        (by simpa [sourceArgs] using ⟨hheldA, hheldB, hC.holdsMatrix, hD.holdsMatrix⟩)

/-! ### SINGULAR -/

/-- A matrix that reads as `A` does not pass the gcd test where `A` does not (42_matrix.md R167). -/
theorem checkUnit_then_singular {m n : Nat} {X : Mat} {A : Matrix (Fin n) (Fin n) ℤ} (hX : EqMod m (matrixOf n n X) A)
    (hA : Int.gcd A.det m ≠ 1) (f : Unit → CmdResult) :
    (checkUnit m n X .a >>= f) = .error (.err .singular .a) :=
  bind_of_error (checkUnit_bad .a (by rwa [gcdMod_detMod_of_eqMod hX])) f

/-- Settles O45: the sources are read and square, and the first gcd test is on A, for SOLVE_AFF on `A - B`. -/
theorem singularCoefficientIsReported : Obligations.SingularCoefficientIsReported := by
  intro s a b dst n A B hm hA hdst
  refine ⟨fun hdet => ?inv, fun hB => ⟨fun hdet => ?solveLin, fun dst2 y z C D hdst2 hne hC hD hdet => ?solveAff⟩⟩
  case inv =>
    obtain ⟨X, hX, hres⟩ := invResult_of_holds hm hA hdst
    exact exec_of_error (i := .inv a dst) (hres.trans (checkUnit_then_singular hX hdet _))
  case solveLin =>
    obtain ⟨X, Y, hX, -, hres⟩ := solveLinResult_of_holds hm hA hB hdst
    exact exec_of_error (i := .solveLin a b dst) (hres.trans (checkUnit_then_singular hX hdet _))
  case solveAff =>
    obtain ⟨W, X, Y, Z, hW, hX, -, -, hres⟩ := solveAffResult_of_holds hm hA hB hC hD hdst hdst2 hne
    have hdiff := (eqMod_subMod (uint32 s.mod) n W X).trans (hW.sub hX)
    exact exec_of_error (i := .solveAff a b y z dst dst2) (hres.trans (checkUnit_then_singular hdiff hdet _))

end Sys2Proof.Machine
end

section
/-! Proofs: what DET, ADJ and INV write on a square source (42_matrix.md R160, R163, R166). -/

namespace Sys2Proof.Machine

/-- Settles O41: congruent matrices have congruent determinants. -/
theorem detGivesTheDeterminant : Obligations.DetGivesTheDeterminant := by
  intro s a n A hm hA
  obtain ⟨X, hX, hres⟩ := detResult_of_holds hm hA
  have hdet : detMod (uint32 s.mod) n X = A.det % uint32 s.mod := (detMod_eq _ n X).trans hX.det
  rw [hdet] at hres
  rw [exec_eq, resultOf, hres]
  rfl

/-- A matrix of residues is determined by its congruence class (40_command_model.md R137). -/
theorem eq_emod_of_inRange {m r c : Nat} {B C : Matrix (Fin r) (Fin c) ℤ} (hB : InRange m B) (h : EqMod m B C) :
    B = Matrix.of fun i j => C i j % m := by
  funext i j
  obtain ⟨h0, h1⟩ := hB i j
  rw [Matrix.of_apply, ← h i j, Int.emod_eq_of_lt h0 h1]

/-- Settles O42: ADJ stores residues that are congruent to the adjugate. -/
theorem adjGivesTheAdjugate : Obligations.AdjGivesTheAdjugate := by
  intro s a dst n A hinv hm hA hdst
  obtain ⟨t, B, hexec, hstatus, hfault, hwritten, hrange, hB⟩ := exec_adj_stores hinv hm hA hdst
  exact ⟨t, hexec, hstatus, hfault, eq_emod_of_inRange hrange hB ▸ hwritten⟩

/-- Settles O43: what INV stores. -/
theorem invGivesTheInverse : Obligations.InvGivesTheInverse :=
  fun _ _ _ _ _ hinv hm hA hdst hunit => exec_inv_stores hinv hm hA hdst hunit

end Sys2Proof.Machine
end

section
/-! Proofs: what SOLVE_AFF leaves unchanged (43_solver.md R184). -/

namespace Sys2Proof.Machine

/-- Settles O32: only a success writes a result, and it is one matrix in `DST` and then one in `DST2`. -/
theorem solveAffFrame : Obligations.SolveAffFrame := by
  intro a b c d dst dst2 s t hexec
  rw [exec_next hexec]
  obtain ⟨hcontrol, -⟩ := complete_frame s (resultOf (.solveAff a b c d dst dst2) s)
  refine ⟨hcontrol, ?_⟩
  cases hres : resultOf (.solveAff a b c d dst dst2) s with
  | error stop =>
    obtain ⟨hscalar, hdet, hshapes, hmem⟩ := complete_error_keeps_results s stop
    exact ⟨hscalar, hdet, by rw [hshapes], fun k _ _ => by rw [shapeAt, hshapes, shapeAt], fun x _ _ => by rw [hmem]⟩
  | ok eff =>
    obtain ⟨-, -, -, -, -, L, v, rfl⟩ := solveAffResult_eq_ok hres
    obtain ⟨hscalar, hdet, hlength, hshape, hmem⟩ :=
      applyWrite_slot_frame s dst (shapeAt s a).rows.toNat (shapeAt s a).rows.toNat L
    obtain ⟨hscalar2, hdet2, hlength2, hshape2, hmem2⟩ := applyWrite_slot_frame
      (applyWrite s (.slot dst (shapeAt s a).rows.toNat (shapeAt s a).rows.toNat L)) dst2 1 (shapeAt s a).rows.toNat v
    exact ⟨hscalar2.trans hscalar, hdet2.trans hdet, hlength2.trans hlength,
      fun k hk hk2 => (hshape2 k hk2).trans (hshape k hk), fun x hx hx2 => (hmem2 x hx2).trans (hmem x hx)⟩

end Sys2Proof.Machine
end

section
/-! Proofs: the solver commands' check that every block is as large as the square source A (43_solver.md R181, R186). -/

namespace Sys2Proof.Machine

theorem checkDim_ok {n r c : Nat} (h : r = n ∧ c = n) (Y : Mat) (arg : ErrArg) :
    checkDim n ⟨r, c, Y⟩ arg = .ok () := by
  simp [checkDim, h]

theorem checkDim_bad {n r c : Nat} (h : ¬ (r = n ∧ c = n)) (Y : Mat) (arg : ErrArg) :
    checkDim n ⟨r, c, Y⟩ arg = .error (.err .dimMismatch arg) := by
  have hsize : (decide (r = n) && decide (c = n)) = false := by simpa using h
  rw [checkDim, hsize, require_false]

theorem checkSquare_ok (n : Nat) (X : Mat) : checkSquare ⟨n, n, X⟩ = .ok () := by
  simp [checkSquare]

section
variable {s : State} {a b dst n rB cB : Nat} {A : Matrix (Fin n) (Fin n) ℤ} {B : Matrix (Fin rB) (Fin cB) ℤ}

/-- With a square source A, SOLVE_LIN's first check after reading its sources is the size of B (43_solver.md R180). -/
theorem solveLinResult_of_square (hm : s.ModulusLegal) (hA : s.SlotHolds a n n A) (hB : s.SlotHolds b rB cB B)
    (hdst : dst < s.params.nslot) :
    ∃ (Y : Mat) (rest : Unit → CmdResult), solveLinResult a b dst s = (checkDim n ⟨rB, cB, Y⟩ .b >>= rest) := by
  obtain ⟨X, hX, -⟩ := readOperand_of_holds (uint32 s.mod) hA
  obtain ⟨Y, hY, -⟩ := readOperand_of_holds (uint32 s.mod) hB
  rw [solveLinResult, commonPrefix_ok (by simpa using ⟨hA.1, hB.1, hdst⟩) rfl hm
    (by simpa using ⟨legalShape_of_holds hA, legalShape_of_holds hB⟩)]
  simp only [hX, hY, checkSquare_ok, except_ok_bind]
  exact ⟨Y, _, rfl⟩

/-- With a square source A, SOLVE_AFF checks the sizes of B, C and D, in this order, after reading its sources
(43_solver.md R184). -/
theorem solveAffResult_of_square {c d dst2 rC cC rD cD : Nat} {C : Matrix (Fin rC) (Fin cC) ℤ}
    {D : Matrix (Fin rD) (Fin cD) ℤ} (hm : s.ModulusLegal) (hA : s.SlotHolds a n n A) (hB : s.SlotHolds b rB cB B)
    (hC : s.SlotHolds c rC cC C) (hD : s.SlotHolds d rD cD D) (hdst : dst < s.params.nslot)
    (hdst2 : dst2 < s.params.nslot) (hne : dst ≠ dst2) :
    ∃ (X Y Z : Mat) (rest : Unit → CmdResult), solveAffResult a b c d dst dst2 s = (do
      checkDim n ⟨rB, cB, X⟩ .b
      checkDim n ⟨rC, cC, Y⟩ .c
      checkDim n ⟨rD, cD, Z⟩ .d >>= rest) := by
  obtain ⟨W, hW, -⟩ := readOperand_of_holds (uint32 s.mod) hA
  obtain ⟨X, hX, -⟩ := readOperand_of_holds (uint32 s.mod) hB
  obtain ⟨Y, hY, -⟩ := readOperand_of_holds (uint32 s.mod) hC
  obtain ⟨Z, hZ, -⟩ := readOperand_of_holds (uint32 s.mod) hD
  rw [solveAffResult, commonPrefix_ok (by simpa using ⟨hA.1, hB.1, hC.1, hD.1, hdst, hdst2⟩) (by simpa using hne) hm
    (by simpa using ⟨legalShape_of_holds hA, legalShape_of_holds hB, legalShape_of_holds hC, legalShape_of_holds hD⟩)]
  simp only [hW, hX, hY, hZ, checkSquare_ok, except_ok_bind]
  exact ⟨X, Y, Z, _, rfl⟩

end

/-- Settles O38: the blocks are checked in order before any gcd test, so the first of another size stops the command. -/
theorem dimMismatchIsReported : Obligations.DimMismatchIsReported := by
  intro s a b dst n rB cB A B hm hA hB hdst
  refine ⟨fun hbad => ?solveLin, fun dst2 y z rC cC rD cD C D hdst2 hne hC hD => ?solveAff⟩
  case solveLin =>
    obtain ⟨Y, rest, hres⟩ := solveLinResult_of_square hm hA hB hdst
    exact exec_of_error (i := .solveLin a b dst) (hres.trans (bind_of_error (checkDim_bad hbad Y .b) _))
  case solveAff =>
    obtain ⟨X, Y, Z, rest, hres⟩ := solveAffResult_of_square hm hA hB hC hD hdst hdst2 hne
    have hstop (arg : ErrArg) (h : solveAffResult a b y z dst dst2 s = .error (.err .dimMismatch arg)) :
        exec (.solveAff a b y z dst dst2) s = .next (s.failedWith 4#8 (errArgBits arg)) :=
      exec_of_error (i := .solveAff a b y z dst dst2) h
    refine ⟨fun hbadB => hstop .b (hres.trans ?_), fun hokB hbadC => hstop .c (hres.trans ?_),
      fun hokB hokC hbadD => hstop .d (hres.trans ?_)⟩
    · exact bind_of_error (checkDim_bad hbadB X .b) _
    · rw [checkDim_ok hokB, except_ok_bind]
      exact bind_of_error (checkDim_bad hbadC Y .c) _
    · rw [checkDim_ok hokB, except_ok_bind, checkDim_ok hokC, except_ok_bind]
      exact bind_of_error (checkDim_bad hbadD Z .d) _

end Sys2Proof.Machine
end

section
/-! Proofs: what the solver commands store, and their result check (43_solver.md R180, R182, R184, R185). -/

namespace Sys2Proof.Machine

/-! ### The solution of a system -/

/-- What a solver computes from an invertible `X` and a `Y` that read as `A` and `B`: the solution of `A·K ≡ B`, whose gcd
test is the one on `B` (43_solver.md R180, R182). -/
theorem solve_spec {m n : Nat} (hm : 1 ≤ m) {X Y : Mat} {A B : Matrix (Fin n) (Fin n) ℤ}
    (hX : EqMod m (matrixOf n n X) A) (hY : EqMod m (matrixOf n n Y) B) (hunit : gcdMod m (detMod m n X) = 1) :
    EqMod m (A * matrixOf n n (mulMod m n (inverseMod m n X) Y)) B ∧
      gcdMod m (detMod m n (mulMod m n (inverseMod m n X) Y)) = Int.gcd B.det m :=
  ⟨((hX.symm.mul (.refl m _)).trans (mul_solve hm X Y hunit)).trans hY,
    (gcd_det_solve hm X Y hunit).trans (gcdMod_detMod_of_eqMod hY)⟩

/-- SOLVE_LIN with an invertible coefficient matrix: what is left is the result check on a solution (43_solver.md R180). -/
theorem solveLinResult_of_unit {s : State} {a b dst n : Nat} {A B : Matrix (Fin n) (Fin n) ℤ} (hm : s.ModulusLegal)
    (hA : s.SlotHolds a n n A) (hB : s.SlotHolds b n n B) (hdst : dst < s.params.nslot)
    (hunit : Int.gcd A.det (uint32 s.mod) = 1) :
    ∃ K, InRange (uint32 s.mod) (matrixOf n n K) ∧ EqMod (uint32 s.mod) (A * matrixOf n n K) B ∧
      gcdMod (uint32 s.mod) (detMod (uint32 s.mod) n K) = Int.gcd B.det (uint32 s.mod) ∧
      solveLinResult a b dst s = (do
        checkUnit (uint32 s.mod) n K .dst
        .ok [.slot dst n n K]) := by
  obtain ⟨X, Y, hX, hY, hres⟩ := solveLinResult_of_holds hm hA hB hdst
  have hgcd : gcdMod (uint32 s.mod) (detMod (uint32 s.mod) n X) = 1 := (gcdMod_detMod_of_eqMod hX).trans hunit
  obtain ⟨hsolves, hcheck⟩ := solve_spec hm.1 hX hY hgcd
  rw [checkUnit_ok _ hgcd, except_ok_bind] at hres
  exact ⟨_, inRange_mulMod hm.1 n _ Y, hsolves, hcheck, hres⟩

/-- SOLVE_AFF with an invertible difference `A - B`: what is left is the result check on a solution `L`, and the row it
stores beside it is row 0 of `C - A·L` (43_solver.md R184, R185). -/
theorem solveAffResult_of_unit {s : State} {a b c d dst dst2 n : Nat} {A B C D : Matrix (Fin n) (Fin n) ℤ}
    (hm : s.ModulusLegal) (hA : s.SlotHolds a n n A) (hB : s.SlotHolds b n n B) (hC : s.SlotHolds c n n C)
    (hD : s.SlotHolds d n n D) (hdst : dst < s.params.nslot) (hdst2 : dst2 < s.params.nslot) (hne : dst ≠ dst2)
    (hunit : Int.gcd (A - B).det (uint32 s.mod) = 1) :
    ∃ L V, InRange (uint32 s.mod) (matrixOf n n L) ∧ InRange (uint32 s.mod) (matrixOf 1 n V) ∧
      EqMod (uint32 s.mod) ((A - B) * matrixOf n n L) (C - D) ∧
      matrixOf n n V = (Matrix.of fun i j => (C - A * matrixOf n n L) i j % uint32 s.mod) ∧
      gcdMod (uint32 s.mod) (detMod (uint32 s.mod) n L) = Int.gcd (C - D).det (uint32 s.mod) ∧
      solveAffResult a b c d dst dst2 s = (do
        checkUnit (uint32 s.mod) n L .dst
        .ok [.slot dst n n L, .slot dst2 1 n V]) := by
  obtain ⟨W, X, Y, Z, hW, hX, hY, hZ, hres⟩ := solveAffResult_of_holds hm hA hB hC hD hdst hdst2 hne
  obtain ⟨-, hpos, -⟩ := hA
  have hcoeff := (eqMod_subMod (uint32 s.mod) n W X).trans (hW.sub hX)
  have hright := (eqMod_subMod (uint32 s.mod) n Y Z).trans (hY.sub hZ)
  have hgcd : gcdMod (uint32 s.mod) (detMod (uint32 s.mod) n (subMod (uint32 s.mod) n W X)) = 1 :=
    (gcdMod_detMod_of_eqMod hcoeff).trans hunit
  obtain ⟨hsolves, hcheck⟩ := solve_spec hm.1 hcoeff hright hgcd
  rw [checkUnit_ok _ hgcd, except_ok_bind] at hres
  refine ⟨_, _, inRange_mulMod hm.1 n _ _, inRange_subMod hm.1 hpos _ _, hsolves, ?_, hcheck, hres⟩
  exact eq_emod_of_inRange (inRange_subMod hm.1 le_rfl _ _)
    ((eqMod_subMod _ n _ _).trans (hY.sub ((eqMod_mulMod _ n _ _).trans (hW.mul (.refl _ _)))))

/-! ### The obligations -/

/-- Settles O46: the solution passes the result check, because `Y` would, and is stored. -/
theorem solveLinSolvesTheSystem : Obligations.SolveLinSolvesTheSystem := by
  intro s a b dst n X Y hinv hm hX hY hdst hunitX hunitY
  obtain ⟨K, hrange, hsolves, hcheck, hres⟩ := solveLinResult_of_unit hm hX hY hdst hunitX
  have hunitK := hcheck.trans hunitY
  rw [checkUnit_ok _ hunitK] at hres
  obtain ⟨-, -, hn, -⟩ := hX
  obtain ⟨t, hexec, hstatus, hfault, hwritten⟩ :=
    exec_stores (i := .solveLin a b dst) hinv hm hdst hn hn hres hrange
  exact ⟨t, _, hexec, hstatus, hfault, hwritten, hrange, hsolves,
    (gcdMod_detMod_of_eqMod (.refl _ _)).symm.trans hunitK⟩

/-- Settles O47: the result check is the one on `Y`, and when it passes the command raises no error. -/
theorem solveLinResultCheckIsOnY : Obligations.SolveLinResultCheckIsOnY := by
  intro s a b dst n X Y herr hm hX hY hdst hunitX
  obtain ⟨K, -, -, hcheck, hres⟩ := solveLinResult_of_unit hm hX hY hdst hunitX
  refine ⟨fun hsingular => ?reported, fun hexec hunitY => ?passed⟩
  case reported =>
    exact exec_of_error (i := .solveLin a b dst)
      (hres.trans (bind_of_error (checkUnit_bad .dst (hcheck ▸ hsingular)) _))
  case passed =>
    rw [checkUnit_ok _ (hcheck.trans hunitY), except_ok_bind] at hres
    have hdone : s.failedWith 2#8 5#4 = complete s (.ok [.slot dst n n K]) := (exec_next hexec).trans (congrArg _ hres)
    obtain ⟨⟨-, -, -, hkeep, -⟩, -⟩ := complete_ok_status s [.slot dst n n K]
    rw [← hdone, State.failedWith_err, herr] at hkeep
    cases hkeep

/-- Settles O48: the solution passes the result check, because `Y1 - Y2` would, and both results are stored. -/
theorem solveAffSolvesTheSystem : Obligations.SolveAffSolvesTheSystem := by
  intro s a b c d dst dst2 n X1 X2 Y1 Y2 hinv hm hX1 hX2 hY1 hY2 hdst hdst2 hne hunitX hunitY
  obtain ⟨L, V, hL, hv, hsolves, hV, hcheck, hres⟩ :=
    solveAffResult_of_unit hm hX1 hX2 hY1 hY2 hdst hdst2 hne hunitX
  rw [checkUnit_ok _ (hcheck.trans hunitY)] at hres
  obtain ⟨-, hpos, hn, -⟩ := hX1
  obtain ⟨t, hexec, hstatus, hfault, hwritten, hwritten2⟩ := exec_stores_two (i := .solveAff a b c d dst dst2) hinv hm
    hdst hdst2 hne hn hn (hpos.trans hn) hn hres hL hv
  refine ⟨t, _, _, hexec, hstatus, hfault, hwritten, hwritten2, hL, hv, hsolves, fun i j hi => ?_⟩
  calc matrixOf 1 n V 0 j = matrixOf n n V i j := by rw [matrixOf_apply, matrixOf_apply, hi, Fin.val_zero]
    _ = (Y1 - X1 * matrixOf n n L) i j % uint32 s.mod := by rw [hV, Matrix.of_apply]

/-- Settles O49: the result check is the one on `Y1 - Y2`. -/
theorem solveAffSingularResultIsReported : Obligations.SolveAffSingularResultIsReported := by
  intro s a b c d dst dst2 n X1 X2 Y1 Y2 hm hX1 hX2 hY1 hY2 hdst hdst2 hne hunitX hsingular
  obtain ⟨L, V, -, -, -, -, hcheck, hres⟩ := solveAffResult_of_unit hm hX1 hX2 hY1 hY2 hdst hdst2 hne hunitX
  exact exec_of_error (i := .solveAff a b c d dst dst2)
    (hres.trans (bind_of_error (checkUnit_bad .dst (hcheck ▸ hsingular)) _))

end Sys2Proof.Machine
end

section
/-! Proofs: the enables mask `IRQ` and leave the pending bits as they are (60_exceptions.md R210). -/

namespace Sys2Proof.Machine

/-- With neither enable set the line is low, whatever is pending. -/
theorem irq_eq_false_of_masked {s : State} (hdoneIe : s.doneIe = false) (herrIe : s.errIe = false) : irq s = false := by
  simp [irq, hdoneIe, herrIe]

/-- With both enables set the line says whether a bit is pending. -/
theorem irq_eq_true_iff_pending {s : State} (hdoneIe : s.doneIe = true) (herrIe : s.errIe = true) :
    irq s = true ↔ s.done = true ∨ s.err = true := by
  rw [irq_eq_true_iff, and_iff_left hdoneIe, and_iff_left herrIe]

/-- Settles O19: a write to `IRQ_EN` sets the two enables and nothing else, so both pending bits survive the masking. -/
theorem maskingKeepsInterruptPending : Obligations.MaskingKeepsInterruptPending :=
  fun s _ => ⟨_, _, memWrite_irqEn s 0#32, irq_eq_false_of_masked rfl rfl, rfl, rfl,
    memWrite_irqEn _ 3#32, irq_eq_true_iff_pending rfl rfl⟩

end Sys2Proof.Machine
end

section
/-! Proofs: what power-on reset and soft reset leave (70_reset_and_hazards.md R240, R241, R244). -/

namespace Sys2Proof.Machine

/-- With every `SHAPE` register at its reset value, every slot is 0×0; that includes the slots that do not exist (log 19). -/
theorem shapeAt_of_replicate {s : State} {n : Nat} (h : s.shapes = List.replicate n ⟨0#8, 0#8⟩) (k : SlotIdx) :
    shapeAt s k = ⟨0#8, 0#8⟩ := by
  rw [shapeAt, h, List.getD_eq_getElem?_getD, List.getElem?_getD_replicate_default_eq]

theorem shapeAt_powerOn (p : Params) (k : SlotIdx) : shapeAt (State.powerOn p) k = ⟨0#8, 0#8⟩ :=
  shapeAt_of_replicate (State.powerOn_shapes p) k

theorem shapeAt_softReset (s : State) (k : SlotIdx) : shapeAt (softReset s) k = ⟨0#8, 0#8⟩ :=
  shapeAt_of_replicate (softReset_shapes s) k

/-- No entry has a value after power-on (70_reset_and_hazards.md R243). -/
theorem entryAt_powerOn (p : Params) (k : SlotIdx) (i j : Nat) : entryAt (State.powerOn p) k i j = none := by
  rw [entryAt, State.powerOn_mem]
  rfl

theorem statusWord_powerOn (p : Params) : statusWord (State.powerOn p) = 0#32 :=
  eq_ofNat_of_toNat ((statusWord_toNat _).trans (by simp))

theorem irqEnWord_powerOn (p : Params) : irqEnWord (State.powerOn p) = 0#32 :=
  eq_ofNat_of_toNat ((irqEnWord_toNat _).trans (by simp))

/-- Every register from `CTRL` to `DET_R` has the reset value 0 (70_reset_and_hazards.md R244). -/
theorem memRead_powerOn_register (p : Params) {off : Nat} (halign : off % 4 = 0) (hlow : 0x008 ≤ off)
    (hhigh : off ≤ 0x024) : memRead (State.powerOn p) off 4 = (.data 0#32, State.powerOn p) := by
  refine memRead_register halign (by omega) ?_
  obtain rfl | rfl | rfl | rfl | rfl | rfl | rfl | rfl : off = 0x008 ∨ off = 0x00C ∨ off = 0x010 ∨ off = 0x014 ∨
      off = 0x018 ∨ off = 0x01C ∨ off = 0x020 ∨ off = 0x024 := by omega
  case inr.inl => exact irqEnWord_powerOn p
  case inr.inr.inr.inl => exact statusWord_powerOn p
  all_goals rfl

theorem memRead_powerOn_shape {p : Params} (hp : p.Legal) {k : Nat} (hk : k < p.nslot) :
    memRead (State.powerOn p) (0x100 + 4 * k) 4 = (.data 0#32, State.powerOn p) := by
  rw [memRead_shape hp hk, shapeAt_powerOn]
  rfl

/-- Settles O20: the reads are those of the reset values, and with nothing pending the engine has nothing to run. -/
theorem powerOnValues : Obligations.PowerOnValues := by
  intro p hp
  obtain ⟨hid, hparams, -⟩ := registerReads (State.powerOn p) hp
  have hregisters : ∀ off ∈ [0x008, 0x00C, 0x010, 0x014, 0x018, 0x01C, 0x020, 0x024],
      off % 4 = 0 ∧ 0x008 ≤ off ∧ off ≤ 0x024 := by decide
  refine ⟨hid, hparams, fun off hoff => ?_, fun k hk => memRead_powerOn_shape hp hk, entryAt_powerOn p,
    State.powerOn_pending p, State.powerOn_fault p,
    irq_eq_false_of_clear (State.powerOn_done p) (State.powerOn_err p), engineStep_of_idle (State.powerOn_pending p)⟩
  obtain ⟨halign, hlow, hhigh⟩ := hregisters off hoff
  exact memRead_powerOn_register p halign hlow hhigh

/-- Settles O21: `CTRL` is never locked, so the write reaches it in every state; the values are those of `softReset`, and an
empty latch leaves the engine nothing to complete. -/
theorem softResetKeepsEntries : Obligations.SoftResetKeepsEntries :=
  fun s v _ => ⟨fun hbit => by rw [memWrite_ctrl, if_neg (Bool.eq_false_iff.mp hbit)],
    fun hbit => ⟨softReset s, by rw [memWrite_ctrl, if_pos hbit], softReset_params s, softReset_mem s, softReset_fault s,
      softReset_pending s, engineStep_of_idle (softReset_pending s), softReset_busy s, softReset_done s,
      softReset_err s, softReset_busywr s, softReset_errArg s, softReset_errCode s, softReset_lastOp s,
      softReset_doneIe s, softReset_errIe s, softReset_cmd s, softReset_mod s, softReset_scalarA s,
      softReset_scalarR s, softReset_detR s, shapeAt_softReset s⟩⟩

/-- Settles O22: the reset state is the power-on state of the default parameters, which are legal. -/
theorem invariantAtReset : Obligations.InvariantAtReset :=
  ⟨State.powerOn_inv (by decide), fun _ hp => State.powerOn_inv hp⟩

end Sys2Proof.Machine
end
